-- ==== Sys2Proof/Word.lean ====
section
/-! DEFINITION. The two bit widths the spec gives the machine (00_scope.md R4). -/

namespace Sys2Proof

/-- An 8-bit byte: the addressable unit, the operands, the registers A, X and Y (00_scope.md R4). -/
abbrev Byte := BitVec 8

/-- A 16-bit word: `PC`, `SP`, an absolute operand, the value JSR stores (00_scope.md R4). -/
abbrev Word := BitVec 16

end Sys2Proof
end

