-- ==== Sys2Proof/Config.lean ====
section
/-! DEFINITION. The parameters of 00_scope.md R4: what is fixed, and what the machine takes as an argument. -/

namespace Sys2Proof

namespace Config

/-- `CAPACITY`: the number of bytes of the AddressSpace (00_scope.md R4, 20_memory.md R30; the spec's decision D11, log 17). -/
def capacity : Nat := 65536

/-- `RESET_PC` (00_scope.md R4, 10_state.md R22). -/
def resetPc : Word := 0xFFFC#16

/-- `RESET_SP` (00_scope.md R4, 10_state.md R22). -/
def resetSp : Word := 0x0100#16

/-- What a byte holds when nothing has been written to it since reset: 0x00 (20_memory.md R37, 10_state.md R22). -/
def fillByte : Byte := 0x00#8

/-- `CYC_WIDTH`, the width of the counter in hardware (00_scope.md R4; the spec's decision D7, log 7).
The model's counter is an integer; no definition of the machine reads this number. -/
def cycWidth : Nat := 32

end Config

/-- The four opcode parameters (00_scope.md R4). The source names the opcodes and gives no values, so the
decoder and the engine take them as an argument (the spec's decision D1, log 1). -/
structure Opcodes where
  /-- `OPC_LDA_IMM` -/
  ldaImm : Byte
  /-- `OPC_LDA_ZP` -/
  ldaZp : Byte
  /-- `OPC_LDA_ZPX` -/
  ldaZpx : Byte
  /-- `OPC_JSR` -/
  jsr : Byte
deriving DecidableEq, Repr

/-- The constraints of 00_scope.md R4 on an assignment of the opcode bytes: pairwise distinct, none equal to 0xFF. -/
abbrev Opcodes.Legal (p : Opcodes) : Prop :=
  [p.ldaImm, p.ldaZp, p.ldaZpx, p.jsr].Nodup ∧ (0xFF#8) ∉ [p.ldaImm, p.ldaZp, p.ldaZpx, p.jsr]

end Sys2Proof
end

