-- ==== Sys2Proof/Syntax.lean ====
section
/-! DEFINITION. The instructions: one constructor for each row of the opcode table (30_encoding.md R53). -/

namespace Sys2Proof

/-- The instruction set, closed at four instructions and the fallback (30_encoding.md R53, R58). -/
inductive Instr where
  /-- `LDA #imm8` (41_load.md R76). -/
  | ldaImm (imm8 : Byte)
  /-- `LDA zp8` (41_load.md R77). -/
  | ldaZp (zp8 : Byte)
  /-- `LDA zp8,X` (41_load.md R78). -/
  | ldaZpx (zp8 : Byte)
  /-- `JSR abs16` (42_jsr.md R80). -/
  | jsr (abs16 : Word)
  /-- An opcode byte that is none of the four (43_unrecognized.md R83). -/
  | unrecognized (opcode : Byte)
deriving DecidableEq, Repr

/-- What the opcode byte alone decides (30_encoding.md R54). -/
inductive Operation where
  | ldaImm
  | ldaZp
  | ldaZpx
  | jsr
  | unrecognized (opcode : Byte)
deriving DecidableEq, Repr

/-- The five formats (30_encoding.md R51). -/
inductive Format where
  | imm
  | zp
  | zpx
  | abs
  | unk
deriving DecidableEq, Repr

/-- The operation of an instruction. -/
def Instr.operation : Instr → Operation
  | .ldaImm _ => .ldaImm
  | .ldaZp _ => .ldaZp
  | .ldaZpx _ => .ldaZpx
  | .jsr _ => .jsr
  | .unrecognized b => .unrecognized b

/-- The three loads (41_load.md R76 to R78), the operations that write `x[A]`, `P.Z` and `P.N` (10_state.md R11, R16). -/
def Operation.isLoad : Operation → Bool
  | .ldaImm => true
  | .ldaZp => true
  | .ldaZpx => true
  | .jsr => false
  | .unrecognized _ => false

/-- The format of an operation (30_encoding.md R51, last column). -/
def Operation.format : Operation → Format
  | .ldaImm => .imm
  | .ldaZp => .zp
  | .ldaZpx => .zpx
  | .jsr => .abs
  | .unrecognized _ => .unk

/-- The length in bytes of a format, the opcode byte included (30_encoding.md R51). -/
def Format.length : Format → Nat
  | .imm => 2
  | .zp => 2
  | .zpx => 2
  | .abs => 3
  | .unk => 1

/-- The length in bytes of an instruction (30_encoding.md R51). -/
def Instr.length (i : Instr) : Nat := i.operation.format.length

end Sys2Proof
end

