-- ==== Sys2Proof/WellFormed.lean ====
section
/-! DEFINITION. Which terms of `Instr` are instructions of the machine, for a given assignment of the opcode bytes. -/

namespace Sys2Proof

/-- `b` is one of the four defined opcodes (30_encoding.md R53). -/
abbrev Opcodes.Defines (p : Opcodes) (b : Byte) : Prop :=
  b = p.ldaImm ∨ b = p.ldaZp ∨ b = p.ldaZpx ∨ b = p.jsr

/-- Every operand of every width is legal (30_encoding.md R52, R55 to R57); the fallback stands for the bytes
that are none of the four opcodes, and for no other (30_encoding.md R51, R58). -/
def Instr.wellFormed (p : Opcodes) : Instr → Bool
  | .ldaImm _ => true
  | .ldaZp _ => true
  | .ldaZpx _ => true
  | .jsr _ => true
  | .unrecognized b => !decide (p.Defines b)

end Sys2Proof
end

