-- ==== Sys2Proof/Decode.lean ====
section
/-! DEFINITION. From bytes to an instruction and back (30_encoding.md), for any assignment of the opcode bytes. -/

namespace Sys2Proof

/-- The assignment of the opcode table: the spec's defaults (00_scope.md R4). PRESUMED: the spec takes the values
from the 6502, not from its source (D1, log 1). Unsafe for a claim that fixes them. -/
def tableOpcodes : Opcodes := { ldaImm := 0xA9#8, ldaZp := 0xA5#8, ldaZpx := 0xB5#8, jsr := 0x20#8 }

/-- `v[7:0]` of a word (00_scope.md section 5). -/
def loByte (v : Word) : Byte := v.extractLsb' 0 8

/-- `v[15:8]` of a word (00_scope.md section 5). -/
def hiByte (v : Word) : Byte := v.extractLsb' 8 8

/-- `{hi, lo}`, the word `hi * 256 + lo` (00_scope.md section 5, 40_engine_loop.md R66). -/
def joinBytes (hi lo : Byte) : Word := hi ++ lo

/-- `Decode` of 30_encoding.md R54: a total function of the opcode byte, compared as a whole. -/
def decodeOpcode (p : Opcodes) (b : Byte) : Operation :=
  if b = p.ldaImm then .ldaImm
  else if b = p.ldaZp then .ldaZp
  else if b = p.ldaZpx then .ldaZpx
  else if b = p.jsr then .jsr
  else .unrecognized b

/-- Why a list of bytes is rejected: it ends before the instruction does. No opcode byte is rejected
(30_encoding.md R53, "dispatch is total"); in the machine the bytes never end (log 19). -/
inductive DecodeError where
  /-- there is no opcode byte -/
  | noOpcode
  /-- the list ends inside the operand of this operation -/
  | truncated (op : Operation)
deriving DecidableEq, Repr

/-- The instruction at the front of a list of bytes, and the bytes after it (30_encoding.md R50, R51, R54). -/
def decodeBytes (p : Opcodes) : List Byte → Except DecodeError (Instr × List Byte)
  | [] => .error .noOpcode
  | b :: bytes =>
    match decodeOpcode p b, bytes with
    | .ldaImm, imm8 :: rest => .ok (.ldaImm imm8, rest)
    | .ldaZp, zp8 :: rest => .ok (.ldaZp zp8, rest)
    | .ldaZpx, zp8 :: rest => .ok (.ldaZpx zp8, rest)
    | .jsr, lo :: hi :: rest => .ok (.jsr (joinBytes hi lo), rest)
    | .unrecognized o, rest => .ok (.unrecognized o, rest)
    | op, _ => .error (.truncated op)

/-- The bytes of an instruction, in address order (30_encoding.md R51). -/
def encode (p : Opcodes) : Instr → List Byte
  | .ldaImm imm8 => [p.ldaImm, imm8]
  | .ldaZp zp8 => [p.ldaZp, zp8]
  | .ldaZpx zp8 => [p.ldaZpx, zp8]
  | .jsr abs16 => [p.jsr, loByte abs16, hiByte abs16]
  | .unrecognized b => [b]

/-- The three bytes, first byte first, of an instruction whose first `nbits` bits are `w` and whose further bits
are zero, numbered as the opcode table numbers them. -/
def tableBytes (nbits w : Nat) : List Byte :=
  let v := w % 2 ^ nbits
  [BitVec.ofNat 8 v, BitVec.ofNat 8 (v / 256), BitVec.ofNat 8 (v / 65536)]

/-- The instruction the decoder reads from a word of the opcode table. -/
def decodeTableWord (nbits w : Nat) : Option Instr :=
  match decodeBytes tableOpcodes (tableBytes nbits w) with
  | .ok (i, _) => some i
  | .error _ => none

end Sys2Proof
end

