-- ==== Sys2Proof/Machine/State.lean ====
section
/-! DEFINITION. The state of the machine (10_state.md), the reasons a step stops, and the state after reset. -/

namespace Sys2Proof.Machine

/-- The reasons the machine stops with a fault (60_exceptions.md R85: the one fatal condition). -/
inductive Fault where
  /-- OutOfRange: an engine access at `addr`, at or above the capacity, was rejected. The access latches it in
  `FAULT` (60_exceptions.md R86); the engine's step answers it in every state that holds the latch (40_engine_loop.md
  R70). Safe: a faulted state is never final (log 5). -/
  | outOfRange (addr : Nat)
deriving DecidableEq, Repr

/-- The reasons a step has no meaning. -/
inductive Refusal where
  /-- Raised by an arm of `exec` whose instruction has no meaning yet; no arm of this model does. Safe. -/
  | notModelled (mnemonic : String)
deriving DecidableEq, Repr

/-- The processor status: seven independent bits with no packed form (10_state.md R16, R18). -/
structure Status where
  /-- `P.C`, Carry -/
  c : Bool
  /-- `P.Z`, Zero -/
  z : Bool
  /-- `P.I`, InterruptDisable -/
  i : Bool
  /-- `P.D`, DecimalMode -/
  d : Bool
  /-- `P.B`, BreakCommand -/
  b : Bool
  /-- `P.V`, Overflow -/
  v : Bool
  /-- `P.N`, Negative -/
  n : Bool
deriving DecidableEq, Repr

/-- The AddressSpace: the bytes that differ from the fill byte, by strictly rising address (20_memory.md R30;
representation in log 18). Its form is `Memory.wf`. -/
abbrev Memory := List Host.Cell

/-- The complete state of the machine (10_state.md, the tuple before section 1). -/
structure State where
  /-- `x[A]`, the accumulator (R10) -/
  a : Byte
  /-- `x[X]` (R10) -/
  x : Byte
  /-- `x[Y]` (R10) -/
  y : Byte
  /-- `PC`, the address of the next instruction byte to fetch (R12) -/
  pc : Word
  /-- `SP`, a full 16-bit memory address (R15) -/
  sp : Word
  /-- the seven flags (R16) -/
  p : Status
  /-- `CYC`, the cycle budget, a signed integer (R20; log 7) -/
  cyc : Int
  /-- `FAULT`, the fault latch (R21) -/
  fault : Option Fault
  /-- `M` (20_memory.md R30) -/
  mem : Memory
deriving DecidableEq, Repr

/-- The state after reset (10_state.md R22, 70_reset_and_hazards.md R100). The values of `CYC` and `FAULT` are the
spec's decisions D8 and D6 (log 8). -/
def State.reset : State where
  a := 0x00#8
  x := 0x00#8
  y := 0x00#8
  pc := Config.resetPc
  sp := Config.resetSp
  p := { c := false, z := false, i := false, d := false, b := false, v := false, n := false }
  cyc := 0
  fault := none
  mem := []

/-- `x[A] <- v` -/
def State.withA (s : State) (v : Byte) : State := { s with a := v }

/-- `x[X] <- v` -/
def State.withX (s : State) (v : Byte) : State := { s with x := v }

/-- `x[Y] <- v` -/
def State.withY (s : State) (v : Byte) : State := { s with y := v }

/-- `PC <- v` -/
def State.withPc (s : State) (v : Word) : State := { s with pc := v }

/-- `SP <- v` -/
def State.withSp (s : State) (v : Word) : State := { s with sp := v }

/-- All seven flags at once. -/
def State.withP (s : State) (v : Status) : State := { s with p := v }

/-- `CYC <- v` -/
def State.withCyc (s : State) (v : Int) : State := { s with cyc := v }

/-- `FAULT <- v` -/
def State.withFault (s : State) (v : Option Fault) : State := { s with fault := v }

/-- The whole memory at once. -/
def State.withMem (s : State) (v : Memory) : State := { s with mem := v }

end Sys2Proof.Machine
end

