-- ==== Sys2Proof/Machine/Ops.lean ====
section
/-! DEFINITION. The operations over memory and registers: the raw accesses (20_memory.md R31 to R37), fault entry
(60_exceptions.md R86) and the engine's charging primitives (40_engine_loop.md R65 to R69). -/

namespace Sys2Proof.Machine

/-- The byte an address holds; an address that is not listed holds the fill byte. -/
def Memory.get : Memory → Nat → Byte
  | [], _ => Config.fillByte
  | (k, v) :: m, addr => if k = addr then v else Memory.get m addr

/-- The memory with one byte replaced, in canonical form: a fill byte is not listed. -/
def Memory.set : Memory → Nat → Byte → Memory
  | [], addr, v => if v = Config.fillByte then [] else [(addr, v)]
  | (k, w) :: m, addr, v =>
    if addr < k then (if v = Config.fillByte then (k, w) :: m else (addr, v) :: (k, w) :: m)
    else if addr = k then (if v = Config.fillByte then m else (addr, v) :: m)
    else (k, w) :: Memory.set m addr v

/-- The canonical form from an address on: addresses strictly rising and below the capacity, no fill byte listed. -/
def Memory.wfFrom (lo : Nat) : Memory → Bool
  | [] => true
  | (k, v) :: m => decide (lo ≤ k) && decide (k < Config.capacity) && decide (v ≠ Config.fillByte) && Memory.wfFrom (k + 1) m

/-- The canonical form of memory (log 18). -/
def Memory.wf (m : Memory) : Bool := Memory.wfFrom 0 m

/-- `initialize()`: every byte zero (20_memory.md R37). -/
def Memory.initialize : Memory := []

/-- The result of a raw access: its value, or the signal OutOfRange with the rejected address (20_memory.md R31). -/
inductive Access (α : Type) where
  | ok (val : α)
  | outOfRange (addr : Nat)
deriving DecidableEq, Repr

/-- `MemRead(addr, 1)` (20_memory.md R31). -/
def memRead (m : Memory) (addr : Nat) : Access Byte :=
  if Config.capacity ≤ addr then .outOfRange addr else .ok (m.get addr)

/-- `MemWrite(addr, 1, v)` (20_memory.md R32). -/
def memWriteByte (m : Memory) (addr : Nat) (v : Byte) : Access Memory :=
  if Config.capacity ≤ addr then .outOfRange addr else .ok (m.set addr v)

/-- `MemWrite(addr, 2, v)` (20_memory.md R33): both checks before either byte, low byte at `addr`. UNVERIFIED: that
the low byte is not stored when the high byte is rejected is the spec's decision D4 (log 3). -/
def memWriteWord (m : Memory) (addr : Nat) (v : Word) : Access Memory :=
  if Config.capacity ≤ addr then .outOfRange addr
  else if Config.capacity ≤ addr + 1 then .outOfRange (addr + 1)
  else .ok ((m.set addr (loByte v)).set (addr + 1) (hiByte v))

/-- What a piece of an instruction's pseudocode ends in: a value and the state, or the state that fault entry left,
with the rest of the instruction abandoned. -/
inductive Attempt (α : Type) where
  | done (val : α) (s : State)
  | abandoned (s : State)
deriving DecidableEq, Repr

/-- The rest of the pseudocode, which runs only if nothing before it was abandoned (00_scope.md section 5, "Statement order"). -/
def Attempt.andThen {α β : Type} (r : Attempt α) (f : α → State → Attempt β) : Attempt β :=
  match r with
  | .done v s => f v s
  | .abandoned s => .abandoned s

/-- The state an attempt leaves, whichever way it ends. -/
def Attempt.state {α : Type} : Attempt α → State
  | .done _ s => s
  | .abandoned s => s

/-- An instruction's effect as an outcome: a next state in both cases, since fault entry has its own next state, with
the latch set (60_exceptions.md R86; log 4). -/
def Attempt.outcome {α : Type} (r : Attempt α) : Host.Outcome State Fault Refusal := .next r.state

/-- Fault entry, `raise OutOfRange(addr)` (60_exceptions.md R86, R92): latch `FAULT`, and nothing else: no register is
saved, no vector is read, `PC` stays. There is no return from it but reset (60_exceptions.md R93). UNVERIFIED: the
latch is the spec's decision D5 (log 4). -/
def raiseOutOfRange {α : Type} (addr : Nat) (s : State) : Attempt α :=
  .abandoned (s.withFault (some (.outOfRange addr)))

/-- `Charge(n)` (40_engine_loop.md R69). -/
def charge (n : Nat) (s : State) : State := s.withCyc (s.cyc - n)

/-- `FetchByte()` (40_engine_loop.md R65); `PC` wraps (10_state.md R14; the spec's decision D2, log 2). -/
def fetchByte (s : State) : Attempt Byte :=
  match memRead s.mem s.pc.toNat with
  | .ok b => .done b (charge 1 (s.withPc (s.pc + 1)))
  | .outOfRange addr => raiseOutOfRange addr s

/-- `FetchWord()` (40_engine_loop.md R66): low byte first. -/
def fetchWord (s : State) : Attempt Word :=
  match memRead s.mem s.pc.toNat with
  | .ok lo =>
    match memRead s.mem (s.pc + 1).toNat with
    | .ok hi => .done (joinBytes hi lo) (charge 2 (s.withPc (s.pc + 2)))
    | .outOfRange addr => raiseOutOfRange addr s
  | .outOfRange addr => raiseOutOfRange addr s

/-- `ReadByte(addr)` (40_engine_loop.md R67). -/
def readByte (addr : Nat) (s : State) : Attempt Byte :=
  match memRead s.mem addr with
  | .ok b => .done b (charge 1 s)
  | .outOfRange a => raiseOutOfRange a s

/-- `WriteWord(addr, v)` (40_engine_loop.md R68): the charge applies only to a write that is performed. -/
def writeWord (addr : Nat) (v : Word) (s : State) : Attempt Unit :=
  match memWriteWord s.mem addr v with
  | .ok m => .done () (charge 2 (s.withMem m))
  | .outOfRange a => raiseOutOfRange a s

end Sys2Proof.Machine
end

