-- ==== Sys2Proof/Machine/Operands.lean ====
section
/-! DEFINITION. The addressing modes (30_encoding.md R52, R55 to R57) and the fetch of an instruction's bytes. -/

namespace Sys2Proof.Machine

/-- The effective address of format `ZP`: the operand byte, zero-extended (30_encoding.md R55). -/
def zeroPageAddress (zp8 : Byte) : Word := zp8.zeroExtend 16

/-- The effective address of format `ZPX`: the sum with `x[X]` wraps within a byte (30_encoding.md R56). -/
def zeroPageXAddress (zp8 x : Byte) : Word := (zp8 + x).zeroExtend 16

/-- The instruction at `PC`, fetched byte by byte through the charging primitives: the opcode (40_engine_loop.md R71),
then the operand its format has (30_encoding.md R52, R55 to R57). Every instruction fetches all its bytes before
it does anything else, so the fetch is one operation here (log 9). -/
def fetchInstr (p : Opcodes) (s : State) : Attempt Instr :=
  (fetchByte s).andThen fun opcode s =>
    match decodeOpcode p opcode with
    | .ldaImm => (fetchByte s).andThen fun imm8 s => .done (.ldaImm imm8) s
    | .ldaZp => (fetchByte s).andThen fun zp8 s => .done (.ldaZp zp8) s
    | .ldaZpx => (fetchByte s).andThen fun zp8 s => .done (.ldaZpx zp8) s
    | .jsr => (fetchWord s).andThen fun abs16 s => .done (.jsr abs16) s
    | .unrecognized b => .done (.unrecognized b) s

end Sys2Proof.Machine
end

