-- ==== Sys2Proof/Machine/Fallback.lean ====
section
/-! DEFINITION. The unrecognized-opcode fallback (43_unrecognized.md). -/

namespace Sys2Proof.Machine

/-- An unrecognized opcode (43_unrecognized.md R83): nothing beyond the opcode fetch that the step already made. Its
diagnostic is output, not state (00_scope.md R9); `diagnosticsOfStep` of Machine/Harness.lean gives it. -/
def execUnrecognized (_opcode : Byte) (s : State) : Host.Outcome State Fault Refusal := .next s

end Sys2Proof.Machine
end

