-- ==== Sys2Proof/Machine/Jump.lean ====
section
/-! DEFINITION. The one control transfer (42_jsr.md). It starts after its bytes have been fetched (log 9). -/

namespace Sys2Proof.Machine

/-- The word JSR stores: the address of its own last byte, `PC -16 1` once the operand is fetched (42_jsr.md R80). -/
def returnWord (s : State) : Word := s.pc - 1

/-- `JSR abs16` (42_jsr.md R80): store the return word at `SP`, raise `SP` by one, jump, one internal cycle. A
rejected store abandons the rest (60_exceptions.md R86). -/
def execJsr (abs16 : Word) (s : State) : Host.Outcome State Fault Refusal :=
  ((writeWord s.sp.toNat (returnWord s) s).andThen fun _ s =>
    .done () (charge 1 ((s.withSp (s.sp + 1)).withPc abs16))).outcome

end Sys2Proof.Machine
end

