-- ==== Sys2Proof/Machine/Flags.lean ====
section
/-! DEFINITION. The one flag computation of the machine (41_load.md R75). -/

namespace Sys2Proof.Machine

/-- `P.Z` for a loaded byte (41_load.md R75). -/
def zeroFlag (v : Byte) : Bool := decide (v = 0x00#8)

/-- `P.N` for a loaded byte: its bit 7 (41_load.md R75). -/
def negativeFlag (v : Byte) : Bool := v.getLsbD 7

/-- `SetLoadFlags()` (41_load.md R75): `P.Z` and `P.N` from the accumulator, every other flag kept. -/
def setLoadFlags (s : State) : State :=
  s.withP { s.p with z := zeroFlag s.a, n := negativeFlag s.a }

end Sys2Proof.Machine
end

