-- ==== Sys2Proof/Machine/Load.lean ====
section
/-! DEFINITION. The three load instructions (41_load.md). Each starts after its bytes have been fetched (log 9). -/

namespace Sys2Proof.Machine

/-- `x[A] <- v; SetLoadFlags()`, the end of every load (41_load.md R76 to R78). -/
def loadA (v : Byte) (s : State) : Attempt Unit := .done () (setLoadFlags (s.withA v))

/-- `LDA #imm8` (41_load.md R76). -/
def execLdaImm (imm8 : Byte) (s : State) : Host.Outcome State Fault Refusal :=
  (loadA imm8 s).outcome

/-- `LDA zp8` (41_load.md R77). -/
def execLdaZp (zp8 : Byte) (s : State) : Host.Outcome State Fault Refusal :=
  ((readByte (zeroPageAddress zp8).toNat s).andThen loadA).outcome

/-- `LDA zp8,X` (41_load.md R78): one internal cycle for the index addition, then the data read. -/
def execLdaZpx (zp8 : Byte) (s : State) : Host.Outcome State Fault Refusal :=
  ((readByte (zeroPageXAddress zp8 s.x).toNat (charge 1 s)).andThen loadA).outcome

end Sys2Proof.Machine
end

