-- ==== Sys2Proof/Machine/Engine.lean ====
section
/-! DEFINITION. The engine: one step for any assignment of the opcode bytes, and the placing of an instruction. -/

namespace Sys2Proof.Machine

/-- The loop condition `CYC > 0 and FAULT == None` (40_engine_loop.md R70). -/
def running (s : State) : Bool := decide (0 < s.cyc) && s.fault.isNone

/-- One step of the engine. In a running state it is `Step()` (40_engine_loop.md R71): fetch the instruction at
`PC`, then its meaning. A latched fault stops the machine (40_engine_loop.md R70, 60_exceptions.md R93; log 5).
With no budget left the engine is idle and all state is retained (60_exceptions.md R99; log 6). -/
def stepWith (p : Opcodes) (s : State) : Host.Outcome State Fault Refusal :=
  match s.fault with
  | some f => .fault f
  | none =>
    if 0 < s.cyc then
      match fetchInstr p s with
      | .done i t => exec i t
      | .abandoned t => .next t
    else .next s

/-- The memory with these bytes at an address and after it, modulo 65536 as `PC` counts (30_encoding.md R50). -/
def placeBytes (m : Memory) (addr : Word) : List Byte → Memory
  | [] => m
  | b :: bytes => placeBytes (m.set addr.toNat b) (addr + 1) bytes

/-- What the engine needs to run the very next instruction, and no more: no latched fault and a positive budget
(40_engine_loop.md R70). A budget of one starts exactly one instruction (60_exceptions.md R98; log 10). -/
def armed (s : State) : State :=
  (s.withFault none).withCyc (if 0 < s.cyc then s.cyc else 1)

end Sys2Proof.Machine
end

