-- ==== Sys2Proof/Machine/Step.lean ====
section
/-! DEFINITION. The step of the machine with the opcode table's own bytes, and the placing of one instruction. -/

namespace Sys2Proof.Machine

/-- One step of the machine whose opcode bytes are the table's (00_scope.md R4, log 1). -/
def step (s : State) : Host.Outcome State Fault Refusal := stepWith tableOpcodes s

/-- The state with one instruction stored at `PC`, its further bytes zero, and the engine armed to run it (log 10). -/
def State.withFetchWord (s : State) (nbits w : Nat) : State :=
  armed (s.withMem (placeBytes s.mem s.pc (tableBytes nbits w)))

end Sys2Proof.Machine
end

