-- ==== Sys2Proof/Machine/Harness.lean ====
section
/-! DEFINITION. The host's side of the machine (00_scope.md R6 to R9): its transactions, the execute loop
(40_engine_loop.md R70), the life cycle of the CORE (10_state.md R24) and the diagnostic output. -/

namespace Sys2Proof.Machine

/-- The seven flags by name (10_state.md R16). -/
inductive FlagName where
  | c
  | z
  | i
  | d
  | b
  | v
  | n
deriving DecidableEq, Repr

/-- What a host `preset` may write, with the value (00_scope.md R8; every register but `CYC` and `FAULT` by the
spec's decision D9, log 13). -/
inductive Preset where
  | a (v : Byte)
  | x (v : Byte)
  | y (v : Byte)
  | pc (v : Word)
  | sp (v : Word)
  | flag (f : FlagName) (v : Bool)
deriving DecidableEq, Repr

/-- What a host `inspect` may read (00_scope.md R6, R8). -/
inductive RegName where
  | a
  | x
  | y
  | pc
  | sp
  | flag (f : FlagName)
  | cyc
  | fault
deriving DecidableEq, Repr

/-- The value of a register, in its own type. -/
inductive RegValue where
  | byte (v : Byte)
  | word (v : Word)
  | bit (v : Bool)
  | int (v : Int)
  | latch (v : Option Fault)
deriving DecidableEq, Repr

/-- The transactions of the host interface (00_scope.md R6). -/
inductive Transaction where
  | construct
  | reset
  | poke (addr : Nat) (v : Byte)
  | peek (addr : Nat)
  | preset (r : Preset)
  | inspect (r : RegName)
  | execute (budget : Int)
deriving DecidableEq, Repr

/-- The life of the CORE. Before the first reset its contents are unspecified, so there is no state to hold
(10_state.md R24; log 12). -/
inductive Platform where
  /-- nothing has been constructed -/
  | absent
  /-- constructed, never reset -/
  | constructed
  /-- reset at least once -/
  | live (s : State)
deriving DecidableEq, Repr

/-- Why the host's transaction has no meaning where it stands (00_scope.md R6, 10_state.md R24). Safe (log 12). -/
inductive HostRefusal where
  /-- before `construct` -/
  | notConstructed
  /-- before the first `reset` -/
  | notReset
  /-- a second `construct` -/
  | alreadyConstructed
deriving DecidableEq, Repr

/-- What the host gets back. -/
inductive Response where
  | done
  | byte (v : Byte)
  | value (v : RegValue)
  /-- the address is at or above the capacity and nothing happened (60_exceptions.md R87) -/
  | outOfRange (addr : Nat)
  | refused (r : HostRefusal)
deriving DecidableEq, Repr

/-- One flag of the status. -/
def Status.get (p : Status) : FlagName → Bool
  | .c => p.c
  | .z => p.z
  | .i => p.i
  | .d => p.d
  | .b => p.b
  | .v => p.v
  | .n => p.n

/-- The status with one flag written. -/
def Status.set (p : Status) (f : FlagName) (v : Bool) : Status :=
  match f with
  | .c => { p with c := v }
  | .z => { p with z := v }
  | .i => { p with i := v }
  | .d => { p with d := v }
  | .b => { p with b := v }
  | .v => { p with v := v }
  | .n => { p with n := v }

/-- `preset(r, v)`: the named register or flag and nothing else (00_scope.md R8). -/
def applyPreset (r : Preset) (s : State) : State :=
  match r with
  | .a v => s.withA v
  | .x v => s.withX v
  | .y v => s.withY v
  | .pc v => s.withPc v
  | .sp v => s.withSp v
  | .flag f v => s.withP (s.p.set f v)

/-- `inspect(r)` (00_scope.md R8). -/
def inspectReg (r : RegName) (s : State) : RegValue :=
  match r with
  | .a => .byte s.a
  | .x => .byte s.x
  | .y => .byte s.y
  | .pc => .word s.pc
  | .sp => .word s.sp
  | .flag f => .bit (s.p.get f)
  | .cyc => .int s.cyc
  | .fault => .latch s.fault

/-- The while loop of `execute`, at most `fuel` instructions (40_engine_loop.md R70). -/
def engineLoop (p : Opcodes) : Nat → State → State
  | 0, s => s
  | fuel + 1, s =>
    if running s then
      match stepWith p s with
      | .next t => engineLoop p fuel t
      | .fault _ => s
      | .refused _ => s
    else s

/-- `execute(budget)` (40_engine_loop.md R70). Every instruction costs at least one cycle, so the loop never starts
more than `budget` of them (40_engine_loop.md R73; log 20). -/
def execute (p : Opcodes) (budget : Int) (s : State) : State :=
  if s.fault.isSome then s else engineLoop p budget.toNat (s.withCyc budget)

/-- One transaction on a live machine. -/
def transactLive (p : Opcodes) (t : Transaction) (s : State) : Response × State :=
  match t with
  | .construct => (.refused .alreadyConstructed, s)
  | .reset => (.done, State.reset)
  | .poke addr v =>
    match memWriteByte s.mem addr v with
    | .ok m => (.done, s.withMem m)
    | .outOfRange a => (.outOfRange a, s)
  | .peek addr =>
    match memRead s.mem addr with
    | .ok v => (.byte v, s)
    | .outOfRange a => (.outOfRange a, s)
  | .preset r => (.done, applyPreset r s)
  | .inspect r => (.value (inspectReg r s), s)
  | .execute budget => (.done, execute p budget s)

/-- One transaction before the first reset: only `reset` has an effect, and a `poke` is allowed and pointless
(10_state.md R24; log 12). -/
def transactConstructed (t : Transaction) : Response × Platform :=
  match t with
  | .construct => (.refused .alreadyConstructed, .constructed)
  | .reset => (.done, .live State.reset)
  | .poke addr _ => (if Config.capacity ≤ addr then .outOfRange addr else .done, .constructed)
  | .peek _ => (.refused .notReset, .constructed)
  | .preset _ => (.refused .notReset, .constructed)
  | .inspect _ => (.refused .notReset, .constructed)
  | .execute _ => (.refused .notReset, .constructed)

/-- One transaction of the host (00_scope.md R6), atomic with respect to the engine (R7; log 11). -/
def transact (p : Opcodes) (t : Transaction) : Platform → Response × Platform
  | .absent =>
    match t with
    | .construct => (.done, .constructed)
    | .reset => (.refused .notConstructed, .absent)
    | .poke _ _ => (.refused .notConstructed, .absent)
    | .peek _ => (.refused .notConstructed, .absent)
    | .preset _ => (.refused .notConstructed, .absent)
    | .inspect _ => (.refused .notConstructed, .absent)
    | .execute _ => (.refused .notConstructed, .absent)
  | .constructed => transactConstructed t
  | .live s => ((transactLive p t s).1, .live (transactLive p t s).2)

/-- The diagnostic events (00_scope.md R9, the spec's decision D12). -/
inductive Diagnostic where
  | reset
  | unrecognizedOpcode (b : Byte)
  | outOfRange (addr : Nat)
deriving DecidableEq, Repr

/-- The three named conditions (60_exceptions.md R85). -/
inductive Condition where
  | outOfRange
  | unrecognizedOpcode
  | budgetUnderrun
deriving DecidableEq, Repr

/-- The number of a condition, where it has one (60_exceptions.md R85; the spec's decision D20, log 16). -/
def Condition.code : Condition → Option Nat
  | .outOfRange => some 1
  | .unrecognizedOpcode => some 2
  | .budgetUnderrun => none

/-- Whether a condition, raised by the engine, ends the run (60_exceptions.md R85). -/
def Condition.endsRun : Condition → Bool
  | .outOfRange => true
  | .unrecognizedOpcode => false
  | .budgetUnderrun => false

/-- The diagnostics of one step: output only, which nothing reads (00_scope.md R9; log 15). -/
def diagnosticsOfStep (p : Opcodes) (s : State) : List Diagnostic :=
  if running s then
    match fetchInstr p s with
    | .done (.unrecognized b) _ => [.unrecognizedOpcode b]
    | _ =>
      match stepWith p s with
      | .next t => t.fault.toList.map fun | .outOfRange addr => .outOfRange addr
      | .fault _ => []
      | .refused _ => []
  else []

/-- The diagnostics of a run, oldest first. -/
def diagnosticsOfLoop (p : Opcodes) : Nat → State → List Diagnostic
  | 0, _ => []
  | fuel + 1, s =>
    if running s then
      match stepWith p s with
      | .next t => diagnosticsOfStep p s ++ diagnosticsOfLoop p fuel t
      | .fault _ => []
      | .refused _ => []
    else []

/-- The diagnostics of one transaction on a live machine (00_scope.md R9). -/
def diagnosticsOfTransaction (p : Opcodes) (t : Transaction) (s : State) : List Diagnostic :=
  match t with
  | .construct => []
  | .reset => [.reset]
  | .poke _ _ => []
  | .peek _ => []
  | .preset _ => []
  | .inspect _ => []
  | .execute budget => if s.fault.isSome then [] else diagnosticsOfLoop p budget.toNat (s.withCyc budget)

end Sys2Proof.Machine
end

