-- ==== Sys2Proof/Safety.lean ====
section
/-! DEFINITION. The terms claims are stated in: reading a byte, counted runs, safe runs, the invariants. -/

namespace Sys2Proof.Machine

/-- The byte a state holds at an address: the one read of memory that claims use. -/
def State.byteAt (s : State) (addr : Nat) : Byte := s.mem.get addr

/-- The three bytes at `PC`, the most an instruction has (30_encoding.md R50, R51). -/
def State.bytesAtPc (s : State) : List Byte :=
  [s.byteAt s.pc.toNat, s.byteAt (s.pc + 1).toNat, s.byteAt (s.pc + 2).toNat]

/-- Exactly `k` instructions, each started in a running state (40_engine_loop.md R70, R71). -/
def instructions (p : Opcodes) : Nat → State → Option State
  | 0, s => some s
  | k + 1, s =>
    if running s then
      match stepWith p s with
      | .next t => instructions p k t
      | .fault _ => none
      | .refused _ => none
    else none

/-- A run of `k` instructions that latches no fault; only of such a run may a claim give a result
(60_exceptions.md R86). -/
def SafeRun (p : Opcodes) (k : Nat) (s : State) : Prop :=
  ∃ t, instructions p k s = some t ∧ t.fault = none

/-- What every step and every host transaction keeps: memory in its canonical form, and in the latch nothing but the
one reachable fault (10_state.md R21, 20_memory.md R34). -/
def State.Sound (s : State) : Prop :=
  s.mem.wf = true ∧ (s.fault = none ∨ s.fault = some (.outOfRange Config.capacity))

/-- What every step keeps beside that: the budget is never overdrawn by more than five (40_engine_loop.md R72), and a
latched fault leaves `SP` at the top of the address space (42_jsr.md R80). -/
def State.Inv (s : State) : Prop :=
  s.Sound ∧ -5 ≤ s.cyc ∧ (s.fault ≠ none → s.sp = 0xFFFF#16)

/-- A life-cycle stage whose state, if there is one, is sound. -/
def Platform.Sound : Platform → Prop
  | .absent => True
  | .constructed => True
  | .live s => s.Sound

/-- The state an instruction can depend on: all but the registers and flags that no instruction reads
(10_state.md R11, R16). -/
def State.AgreeOnRead (s t : State) : Prop :=
  s.x = t.x ∧ s.pc = t.pc ∧ s.sp = t.sp ∧ s.cyc = t.cyc ∧ s.fault = t.fault ∧ s.mem = t.mem

end Sys2Proof.Machine
end

