-- ==== Sys2Proof/Certificates/Slice0/Obligations.lean ====
section
/-! DEFINITION. The statements for the provers. `p` ranges over the assignments of the opcode bytes (00_scope.md R4),
so that a statement holds for any values of them; `step` is `stepWith` at the table's values (log 1). Wherever `PC`
is increased, it is modulo 65536 as the rules write it (`+16`); at 0xFFFF that rests on the spec's decision D2 (log 2).
A statement about `exec` is about what follows the fetch of the instruction's bytes, which has already moved `PC` and
charged its cycles: that is where the model lets a meaning start (log 9). A statement about every step takes in the
step of an idle state, which is the model's own form (log 6). -/

open Sys2Proof Sys2Proof.Machine

/-! ### Encoding -/

/-- 30_encoding.md R54: the opcode byte is compared as a whole with the four opcodes, every other byte is
unrecognized, and an unrecognized opcode takes no operand byte. 0xFF is unrecognized under every legal assignment
(the constraint of 00_scope.md R4). -/
def Obligations.DecodeOpcodeIsTheMap : Prop :=
  ∀ p : Opcodes, p.Legal →
    decodeOpcode p p.ldaImm = .ldaImm ∧ decodeOpcode p p.ldaZp = .ldaZp ∧ decodeOpcode p p.ldaZpx = .ldaZpx ∧
    decodeOpcode p p.jsr = .jsr ∧
    decodeOpcode p 0xFF#8 = .unrecognized 0xFF#8 ∧
    ∀ b, b ≠ p.ldaImm → b ≠ p.ldaZp → b ≠ p.ldaZpx → b ≠ p.jsr →
      decodeOpcode p b = .unrecognized b ∧ ∀ rest, decodeBytes p (b :: rest) = .ok (.unrecognized b, rest)

/-- Sanity: words written out from the formats of 30_encoding.md R51 and the default opcode bytes of R53 (the bytes
are PRESUMED by the spec, log 1). -/
def Obligations.DecodeWordsFromTheSpec : Prop :=
  decodeTableWord 16 0x84A9 = some (.ldaImm 0x84#8) ∧ decodeTableWord 16 0x42A5 = some (.ldaZp 0x42#8) ∧
  decodeTableWord 16 0x43B5 = some (.ldaZpx 0x43#8) ∧ decodeTableWord 24 0x123420 = some (.jsr 0x1234#16) ∧
  decodeTableWord 8 0xFF = some (.unrecognized 0xFF#8) ∧ decodeTableWord 8 0x00 = some (.unrecognized 0x00#8)

/-- 30_encoding.md R51, R53, R54: the bytes of every well-formed instruction, with every operand, decode to it and
leave the bytes after it, for every legal assignment of the opcode bytes. -/
def Obligations.DecodeEncode : Prop :=
  ∀ p : Opcodes, p.Legal → ∀ (i : Instr) (rest : List Byte), i.wellFormed p = true →
    decodeBytes p (encode p i ++ rest) = .ok (i, rest)

/-- 30_encoding.md R50, R51: each byte string has one reading: what decodes to an instruction is that instruction's
own bytes, and the instruction is well-formed. -/
def Obligations.EncodeDecode : Prop :=
  ∀ (p : Opcodes) (bytes : List Byte) (i : Instr) (rest : List Byte), decodeBytes p bytes = .ok (i, rest) →
    bytes = encode p i ++ rest ∧ i.wellFormed p = true

/-- 30_encoding.md R50, R53: the opcode byte alone decides the length, and a byte string of at least that length is
never rejected. That a shorter one is always rejected is the model's own choice (log 19): no rule speaks of a finite
list of bytes. -/
def Obligations.DecodeRejectsOnlyTruncation : Prop :=
  ∀ (p : Opcodes) (b : Byte) (rest : List Byte),
    (∃ i r, decodeBytes p (b :: rest) = .ok (i, r)) ↔ (decodeOpcode p b).format.length ≤ rest.length + 1

/-- 40_engine_loop.md R65, R66, R71: the engine's fetch reads, in every state, the instruction the decoder reads
from the bytes at `PC`, and changes `PC` and `CYC` by its length and nothing else. -/
def Obligations.FetchAgreesWithDecode : Prop :=
  ∀ (p : Opcodes) (s : State), ∃ i rest, decodeBytes p s.bytesAtPc = .ok (i, rest) ∧
    fetchInstr p s = .done i { s with pc := s.pc + BitVec.ofNat 16 i.length, cyc := s.cyc - i.length }

/-- 40_engine_loop.md R71: a running step is the meaning of the decoded instruction, run from the state in which
`PC` has passed the instruction's bytes and each byte has been charged one cycle (log 9). -/
def Obligations.StepRunsTheDecodedInstruction : Prop :=
  (∀ (p : Opcodes) (s : State) (i : Instr) (rest : List Byte), s.fault = none → 0 < s.cyc →
    decodeBytes p s.bytesAtPc = .ok (i, rest) →
    stepWith p s = exec i { s with pc := s.pc + BitVec.ofNat 16 i.length, cyc := s.cyc - i.length }) ∧
  (∀ (s : State) (i : Instr) (rest : List Byte), s.fault = none → 0 < s.cyc →
    decodeBytes tableOpcodes s.bytesAtPc = .ok (i, rest) →
    step s = exec i { s with pc := s.pc + BitVec.ofNat 16 i.length, cyc := s.cyc - i.length })

/-- 20_memory.md R38: every 16-bit quantity is little-endian: the operand as decoded, as encoded and as fetched, and
a stored word. -/
def Obligations.LittleEndianEverywhere : Prop :=
  (∀ (p : Opcodes), p.Legal → ∀ (lo hi : Byte) (rest : List Byte), ∃ t : Word,
    decodeBytes p (p.jsr :: lo :: hi :: rest) = .ok (.jsr t, rest) ∧ t.toNat = hi.toNat * 256 + lo.toNat) ∧
  (∀ (p : Opcodes) (t : Word), ∃ lo hi : Byte, encode p (.jsr t) = [p.jsr, lo, hi] ∧
    lo.toNat = t.toNat % 256 ∧ hi.toNat = t.toNat / 256) ∧
  (∀ s : State, ∃ (v : Word) (t : State), fetchWord s = .done v t ∧
    v.toNat = (s.byteAt (s.pc + 1).toNat).toNat * 256 + (s.byteAt s.pc.toNat).toNat) ∧
  (∀ (m : Memory) (addr : Nat) (v : Word), m.wf = true → addr + 1 < Config.capacity →
    ∃ (m' : Memory) (lo hi : Byte), memWriteWord m addr v = .ok m' ∧ memRead m' addr = .ok lo ∧
      memRead m' (addr + 1) = .ok hi ∧ lo.toNat = v.toNat % 256 ∧ hi.toNat = v.toNat / 256)

/-! ### Operands, flags and the meanings -/

/-- 30_encoding.md R52: the byte after the opcode, used as is. With the effect of `LDA #imm8` after the fetch, from
every state: `x[A]`, and the flags of 41_load.md R75, R76. That `PC` and `CYC` stay here is where the model lets a
meaning start (log 9); R76's own `PC` and cycles are in `LdaImmStep`. -/
def Obligations.ImmediateOperand : Prop :=
  (∀ p : Opcodes, p.Legal → ∀ (imm8 : Byte) (rest : List Byte),
    decodeBytes p (p.ldaImm :: imm8 :: rest) = .ok (.ldaImm imm8, rest)) ∧
  (∀ (imm8 : Byte) (s : State), exec (.ldaImm imm8) s = .next
    { s with a := imm8, p := { s.p with z := decide (imm8 = 0#8), n := imm8.getLsbD 7 } })

/-- 30_encoding.md R55: the operand byte is an address in page zero, and the operand is the byte there. With the
effect of `LDA zp8` after the fetch, from every state: `x[A]` and the flags (41_load.md R75, R77), one cycle for the
data read (40_engine_loop.md R67). That `PC` stays here and that no more is charged is where the model lets a meaning
start (log 9); the whole instruction is in `LdaZpStep`. -/
def Obligations.ZeroPageOperand : Prop :=
  (∀ p : Opcodes, p.Legal → ∀ (zp8 : Byte) (rest : List Byte),
    decodeBytes p (p.ldaZp :: zp8 :: rest) = .ok (.ldaZp zp8, rest)) ∧
  (∀ zp8 : Byte, (zeroPageAddress zp8).toNat = zp8.toNat ∧ (zeroPageAddress zp8).toNat < 256) ∧
  (∀ (zp8 : Byte) (s : State), exec (.ldaZp zp8) s = .next
    { s with
      a := s.byteAt zp8.toNat, cyc := s.cyc - 1,
      p := { s.p with z := decide (s.byteAt zp8.toNat = 0#8), n := (s.byteAt zp8.toNat).getLsbD 7 } })

/-- 30_encoding.md R56: the base plus `x[X]`, wrapping within a byte; one internal cycle for the addition, which
touches no flag. With the effect of `LDA zp8,X` after the fetch, from every state: `x[A]` and the flags (41_load.md
R75, R78), two cycles for the addition and the data read. That `PC` stays here and that no more is charged is where
the model lets a meaning start (log 9); the whole instruction is in `LdaZpxStep`. -/
def Obligations.ZeroPageXOperand : Prop :=
  (∀ p : Opcodes, p.Legal → ∀ (zp8 : Byte) (rest : List Byte),
    decodeBytes p (p.ldaZpx :: zp8 :: rest) = .ok (.ldaZpx zp8, rest)) ∧
  (∀ zp8 x : Byte, (zeroPageXAddress zp8 x).toNat = (zp8.toNat + x.toNat) % 256) ∧
  (∀ (zp8 : Byte) (s : State), exec (.ldaZpx zp8) s = .next
    { s with
      a := s.byteAt ((zp8.toNat + s.x.toNat) % 256), cyc := s.cyc - 2,
      p := { s.p with
        z := decide (s.byteAt ((zp8.toNat + s.x.toNat) % 256) = 0#8),
        n := (s.byteAt ((zp8.toNat + s.x.toNat) % 256)).getLsbD 7 } })

/-- 30_encoding.md R57: the two bytes compose a word with the first byte low, every word is a legal target, and JSR
uses the word itself as the new `PC`. -/
def Obligations.AbsoluteOperand : Prop :=
  (∀ p : Opcodes, p.Legal → ∀ (lo hi : Byte) (rest : List Byte), ∃ t : Word,
    decodeBytes p (p.jsr :: lo :: hi :: rest) = .ok (.jsr t, rest) ∧ t.toNat = hi.toNat * 256 + lo.toNat) ∧
  (∀ (p : Opcodes) (t : Word), (Instr.jsr t).wellFormed p = true) ∧
  (∀ (t : Word) (s : State), s.sp ≠ 0xFFFF#16 → ∃ u, exec (.jsr t) s = .next u ∧ u.pc = t)

/-- 41_load.md R75: `P.Z` and `P.N` are written from the accumulator, both and every time, and nothing else is. -/
def Obligations.SetLoadFlags : Prop :=
  ∀ s : State,
    setLoadFlags s = { s with p := { s.p with z := (setLoadFlags s).p.z, n := (setLoadFlags s).p.n } } ∧
    (s.a.toNat = 0 → (setLoadFlags s).p.z = true ∧ (setLoadFlags s).p.n = false) ∧
    (0x01 ≤ s.a.toNat → s.a.toNat ≤ 0x7F → (setLoadFlags s).p.z = false ∧ (setLoadFlags s).p.n = false) ∧
    (0x80 ≤ s.a.toNat → (setLoadFlags s).p.z = false ∧ (setLoadFlags s).p.n = true) ∧
    ¬ ((setLoadFlags s).p.z = true ∧ (setLoadFlags s).p.n = true)

/-- 10_state.md R17: the flags describe the result of the last load. A load sets them from its result; a step that is
no load leaves them, and the accumulator (R11, R16), as they were, and so does an idle step (the model's form, log 6);
and they are no function of the accumulator: not after reset, and not after a preset of it. -/
def Obligations.LoadFlagsDescribeTheLastLoad : Prop :=
  (∀ (i : Instr) (v : Byte) (s t : State), (i = .ldaImm v ∨ i = .ldaZp v ∨ i = .ldaZpx v) →
    exec i s = .next t → (t.p.z = true ↔ t.a = 0#8) ∧ t.p.n = t.a.getLsbD 7) ∧
  (∀ (p : Opcodes) (s t : State), stepWith p s = .next t →
    s.cyc ≤ 0 ∨ (decodeOpcode p (s.byteAt s.pc.toNat)).isLoad = false →
    t.a = s.a ∧ t.p.z = s.p.z ∧ t.p.n = s.p.n) ∧
  (State.reset.a = 0#8 ∧ State.reset.p.z = false) ∧
  (∀ (v : Byte) (s : State), (applyPreset (.a v) s).p = s.p)

/-- 42_jsr.md R80, the effect below the top of the address space, from every state after the fetch (log 9): the word `PC - 1`
is stored little-endian at the old `SP`, `SP` rises by one, `PC` becomes the target, three cycles are charged. -/
def Obligations.ExecJsrCompletes : Prop :=
  ∀ (abs16 : Word) (s : State), s.sp ≠ 0xFFFF#16 → s.mem.wf = true →
    ∃ t, exec (.jsr abs16) s = .next t ∧
      t = { s with pc := abs16, sp := s.sp + 1, cyc := s.cyc - 3, mem := t.mem } ∧
      (t.byteAt s.sp.toNat).toNat = (s.pc - 1).toNat % 256 ∧
      (t.byteAt (s.sp.toNat + 1)).toNat = (s.pc - 1).toNat / 256 ∧
      (∀ addr, addr ≠ s.sp.toNat → addr ≠ s.sp.toNat + 1 → t.byteAt addr = s.byteAt addr)

/-- 43_unrecognized.md R83: after the opcode fetch (log 9) the fallback changes nothing, whatever the byte. -/
def Obligations.ExecUnrecognizedCompletes : Prop :=
  ∀ (b : Byte) (s : State), exec (.unrecognized b) s = .next s

/-! ### Whole instructions, opcode fetch included -/

/-- 41_load.md R76: the whole of `LDA #imm8`, two cycles, for every legal opcode byte. -/
def Obligations.LdaImmStep : Prop :=
  ∀ (p : Opcodes) (s : State), p.Legal → s.fault = none → 0 < s.cyc → s.byteAt s.pc.toNat = p.ldaImm →
    stepWith p s = .next
      { s with
        a := s.byteAt (s.pc + 1).toNat, pc := s.pc + 2, cyc := s.cyc - 2,
        p := { s.p with
          z := decide (s.byteAt (s.pc + 1).toNat = 0#8), n := (s.byteAt (s.pc + 1).toNat).getLsbD 7 } }

/-- 41_load.md R77: the whole of `LDA zp8`, three cycles. -/
def Obligations.LdaZpStep : Prop :=
  ∀ (p : Opcodes) (s : State) (v : Byte), p.Legal → s.fault = none → 0 < s.cyc → s.byteAt s.pc.toNat = p.ldaZp →
    v = s.byteAt (s.byteAt (s.pc + 1).toNat).toNat →
    stepWith p s = .next
      { s with
        a := v, pc := s.pc + 2, cyc := s.cyc - 3, p := { s.p with z := decide (v = 0#8), n := v.getLsbD 7 } }

/-- 41_load.md R78: the whole of `LDA zp8,X`, four cycles, also where the sum wraps. -/
def Obligations.LdaZpxStep : Prop :=
  ∀ (p : Opcodes) (s : State) (v : Byte), p.Legal → s.fault = none → 0 < s.cyc → s.byteAt s.pc.toNat = p.ldaZpx →
    v = s.byteAt (((s.byteAt (s.pc + 1).toNat).toNat + s.x.toNat) % 256) →
    stepWith p s = .next
      { s with
        a := v, pc := s.pc + 2, cyc := s.cyc - 4, p := { s.p with z := decide (v = 0#8), n := v.getLsbD 7 } }

/-- 42_jsr.md R80: the whole of `JSR abs16` below the top of the address space, six cycles; the word stored is the
address of the JSR's own third byte. -/
def Obligations.JsrStep : Prop :=
  ∀ (p : Opcodes) (s : State), p.Legal → s.fault = none → 0 < s.cyc → s.byteAt s.pc.toNat = p.jsr →
    s.sp ≠ 0xFFFF#16 → s.mem.wf = true →
    ∃ t, stepWith p s = .next t ∧
      t = { s with pc := t.pc, sp := s.sp + 1, cyc := s.cyc - 6, mem := t.mem } ∧
      t.pc.toNat = (s.byteAt (s.pc + 2).toNat).toNat * 256 + (s.byteAt (s.pc + 1).toNat).toNat ∧
      (t.byteAt s.sp.toNat).toNat = (s.pc + 2).toNat % 256 ∧
      (t.byteAt (s.sp.toNat + 1)).toNat = (s.pc + 2).toNat / 256 ∧
      (∀ addr, addr ≠ s.sp.toNat → addr ≠ s.sp.toNat + 1 → t.byteAt addr = s.byteAt addr)

/-- 42_jsr.md R80, 60_exceptions.md R86: a JSR with `SP` = 0xFFFF latches OutOfRange(65536); its three fetch cycles
stand, `PC` is past its bytes, and nothing else changes. The form of the fault is the spec's decision D5 (logs 3, 4). -/
def Obligations.JsrFaultStep : Prop :=
  ∀ (p : Opcodes) (s : State), p.Legal → s.fault = none → 0 < s.cyc → s.byteAt s.pc.toNat = p.jsr →
    s.sp = 0xFFFF#16 →
    stepWith p s = .next { s with pc := s.pc + 3, cyc := s.cyc - 3, fault := some (.outOfRange 65536) }

/-- 43_unrecognized.md R83: the whole of an unrecognized opcode, one cycle, for every byte that is none of the four. -/
def Obligations.UnrecognizedStep : Prop :=
  ∀ (p : Opcodes) (s : State), s.fault = none → 0 < s.cyc →
    s.byteAt s.pc.toNat ≠ p.ldaImm → s.byteAt s.pc.toNat ≠ p.ldaZp → s.byteAt s.pc.toNat ≠ p.ldaZpx →
    s.byteAt s.pc.toNat ≠ p.jsr →
    stepWith p s = .next { s with pc := s.pc + 1, cyc := s.cyc - 1 }

/-- 40_engine_loop.md R74: the cycle totals, and their split between the fetched bytes and the rest of the
instruction; nothing but the operation enters. -/
def Obligations.CycleTotals : Prop :=
  ∀ (p : Opcodes) (s t : State) (op : Operation), s.fault = none → 0 < s.cyc →
    op = decodeOpcode p (s.byteAt s.pc.toNat) → stepWith p s = .next t → t.fault = none →
    (op = .ldaImm → t.cyc = s.cyc - 2) ∧ (op = .ldaZp → t.cyc = s.cyc - 3) ∧ (op = .ldaZpx → t.cyc = s.cyc - 4) ∧
    (op = .jsr → t.cyc = s.cyc - 6) ∧ (∀ b, op = .unrecognized b → t.cyc = s.cyc - 1) ∧
    ∃ i u, fetchInstr p s = .done i u ∧ u.cyc = s.cyc - op.format.length ∧
      (op = .ldaImm → t.cyc = u.cyc) ∧ (op = .ldaZp → t.cyc = u.cyc - 1) ∧ (op = .ldaZpx → t.cyc = u.cyc - 1 - 1) ∧
      (op = .jsr → t.cyc = u.cyc - 2 - 1) ∧ (∀ b, op = .unrecognized b → t.cyc = u.cyc)

/-! ### Frames -/

/-- 41_load.md R76 to R78, 10_state.md R16: what a load leaves unchanged after the fetch, which has already moved
`PC` past the instruction (log 9): every register but the accumulator, every
flag but `Z` and `N`, the latch, and every byte of memory. -/
def Obligations.FrameOfLoads : Prop :=
  ∀ (i : Instr) (v : Byte) (s t : State), (i = .ldaImm v ∨ i = .ldaZp v ∨ i = .ldaZpx v) → exec i s = .next t →
    t.x = s.x ∧ t.y = s.y ∧ t.pc = s.pc ∧ t.sp = s.sp ∧ t.fault = s.fault ∧
    t.p.c = s.p.c ∧ t.p.i = s.p.i ∧ t.p.d = s.p.d ∧ t.p.b = s.p.b ∧ t.p.v = s.p.v ∧
    ∀ addr, t.byteAt addr = s.byteAt addr

/-- 42_jsr.md R80: what JSR leaves unchanged after the fetch: the three byte registers, every flag, and every byte of
memory but the two at the old `SP`; where the store is rejected, also `SP` and all of memory (the spec's decisions D4
and D5, logs 3, 4), and `PC` and `CYC` as the fetch left them: R80's `PC0 +16 3` and its three cycles are the fetch's,
which comes before `exec` here (log 9). -/
def Obligations.FrameOfJsr : Prop :=
  ∀ (abs16 : Word) (s t : State), exec (.jsr abs16) s = .next t →
    t.a = s.a ∧ t.x = s.x ∧ t.y = s.y ∧ t.p = s.p ∧
    (∀ addr, addr ≠ s.sp.toNat → addr ≠ s.sp.toNat + 1 → t.byteAt addr = s.byteAt addr) ∧
    (s.sp ≠ 0xFFFF#16 → t.fault = s.fault) ∧
    (s.sp = 0xFFFF#16 → t.pc = s.pc ∧ t.sp = s.sp ∧ t.cyc = s.cyc ∧ ∀ addr, t.byteAt addr = s.byteAt addr)

/-! ### Promises of the whole machine, kept by every step -/

/-- 10_state.md R11, R16: no instruction writes `x[X]`, `x[Y]`, or the flags `C`, `I`, `D`, `B`, `V`. -/
def Obligations.StepKeepsIndexRegistersAndInertFlags : Prop :=
  ∀ (p : Opcodes) (s t : State), stepWith p s = .next t →
    t.x = s.x ∧ t.y = s.y ∧ t.p.c = s.p.c ∧ t.p.i = s.p.i ∧ t.p.d = s.p.d ∧ t.p.b = s.p.b ∧ t.p.v = s.p.v

/-- 20_memory.md R41: the only data write of the machine is JSR's, at `SP` and `SP + 1`. -/
def Obligations.StepStoresOnlyAtTheStack : Prop :=
  ∀ (p : Opcodes) (s t : State), stepWith p s = .next t →
    (∀ addr, addr ≠ s.sp.toNat → addr ≠ s.sp.toNat + 1 → t.byteAt addr = s.byteAt addr) ∧
    (decodeOpcode p (s.byteAt s.pc.toNat) ≠ .jsr → t.mem = s.mem)

/-- 42_jsr.md R81, 10_state.md R15: no step lowers `SP`; it rises by one, and only in a JSR, or it stays. -/
def Obligations.StepNeverLowersSp : Prop :=
  ∀ (p : Opcodes) (s t : State), stepWith p s = .next t →
    t.sp = s.sp ∨
      (decodeOpcode p (s.byteAt s.pc.toNat) = .jsr ∧ t.sp.toNat = s.sp.toNat + 1)

/-- 40_engine_loop.md R72, R73: a running step lowers `CYC` by at least one and at most six. -/
def Obligations.StepChargesOneToSix : Prop :=
  ∀ (p : Opcodes) (s t : State), s.fault = none → 0 < s.cyc → stepWith p s = .next t →
    t.cyc ≤ s.cyc - 1 ∧ s.cyc - 6 ≤ t.cyc

/-- 20_memory.md R34, 10_state.md R21: a running step latches a fault exactly when it is a JSR with `SP` = 0xFFFF,
and the address it latches is 65536. -/
def Obligations.OnlyFaultIsTheStackTop : Prop :=
  ∀ (p : Opcodes) (s t : State), s.fault = none → 0 < s.cyc → stepWith p s = .next t →
    (t.fault ≠ none ↔ decodeOpcode p (s.byteAt s.pc.toNat) = .jsr ∧ s.sp = 0xFFFF#16) ∧
    (t.fault = none ∨ t.fault = some (.outOfRange 65536))

/-- 30_encoding.md R53, R58, 60_exceptions.md R94: every instruction byte runs, in every running state, and no step
refuses: a step answers a next state unless the fault latch is set. Where R71 gives no `Step` the answer is the model's
own form: an idle state (no budget) answers itself (log 6), and a latched state answers the latched fault (log 5). -/
def Obligations.StepAlwaysAnswers : Prop :=
  ∀ (p : Opcodes) (s : State),
    (s.fault = none ∧ ∃ t, stepWith p s = .next t) ∨ (∃ f, s.fault = some f ∧ stepWith p s = .fault f)

/-- 60_exceptions.md R99: with no budget and no fault the engine is idle and all state is retained. That the idle
machine has a step at all is the model's own form (log 6). -/
def Obligations.IdleStepRetainsState : Prop :=
  ∀ (p : Opcodes) (s : State), s.fault = none → s.cyc ≤ 0 → stepWith p s = .next s

/-! ### Runs -/

/-- 40_engine_loop.md R70: with a budget that is not positive nothing is fetched and only `CYC` is loaded; with the
latch set nothing changes at all (the spec's decision D6, log 4). -/
def Obligations.ExecuteWithoutARun : Prop :=
  ∀ (p : Opcodes) (budget : Int) (s : State),
    (s.fault = none → budget ≤ 0 → execute p budget s = { s with cyc := budget }) ∧
    (s.fault ≠ none → execute p budget s = s)

/-- 40_engine_loop.md R70, R71: with a positive budget `execute` is one step and then the rest of the loop, and the
bound on the number of turns is never felt: any larger bound gives the same. -/
def Obligations.ExecuteIsTheWhileLoop : Prop :=
  ∀ (p : Opcodes) (budget : Int) (s : State), s.fault = none → 0 < budget →
    ∃ t, stepWith p { s with cyc := budget } = .next t ∧
      ∀ k, execute p budget s = engineLoop p (t.cyc.toNat + k) t

/-- 40_engine_loop.md R73: every run ends, after at most `budget` instructions, in a state that is not running; if it
does not fault it executes at least `budget / 6` of them, rounded up. -/
def Obligations.ExecuteTerminates : Prop :=
  ∀ (p : Opcodes) (budget : Int) (s : State), s.fault = none → 0 < budget →
    ∃ (k : Nat) (t : State), instructions p k { s with cyc := budget } = some t ∧ execute p budget s = t ∧
      running t = false ∧ (k : Int) ≤ budget ∧ (t.fault = none → budget ≤ 6 * k)

/-- 40_engine_loop.md R72: a run with a positive budget leaves `CYC` at -5 or more, and at 0 or less unless it faults. -/
def Obligations.OverdrawIsAtMostFive : Prop :=
  ∀ (p : Opcodes) (budget : Int) (s : State), s.fault = none → 0 < budget →
    -5 ≤ (execute p budget s).cyc ∧ ((execute p budget s).fault = none → (execute p budget s).cyc ≤ 0)

/-- 60_exceptions.md R98: `execute(1)` is exactly one step. -/
def Obligations.BudgetOfOneIsOneStep : Prop :=
  ∀ (p : Opcodes) (s : State), s.fault = none → stepWith p { s with cyc := 1 } = .next (execute p 1 s)

/-- 40_engine_loop.md R71, R74: the budget decides whether an instruction starts and nothing else: from another
positive budget the step makes the same change and the same charge. -/
def Obligations.BudgetOnlyStarts : Prop :=
  ∀ (p : Opcodes) (s t : State) (c : Int), s.fault = none → 0 < s.cyc → 0 < c → stepWith p s = .next t →
    stepWith p { s with cyc := c } = .next { t with cyc := c - (s.cyc - t.cyc) }

/-- 10_state.md R11, R16: no instruction reads `x[A]`, `x[Y]` or a flag. From two states that agree on all the rest a
step leads to two that agree on all the rest; a load leaves them agreeing on `x[A]`, `Z` and `N` too, and any other
step leaves each its own; and each keeps its own `x[Y]`, `C`, `I`, `D`, `B` and `V`. An idle step, which leaves each
state as it is, is the model's own form (log 6). -/
def Obligations.StepIgnoresUnreadState : Prop :=
  ∀ (p : Opcodes) (s s' t : State), s.AgreeOnRead s' → stepWith p s = .next t →
    ∃ t', stepWith p s' = .next t' ∧ t.AgreeOnRead t' ∧
      (0 < s.cyc → (decodeOpcode p (s.byteAt s.pc.toNat)).isLoad = true →
        t'.a = t.a ∧ t'.p.z = t.p.z ∧ t'.p.n = t.p.n) ∧
      (s.cyc ≤ 0 ∨ (decodeOpcode p (s.byteAt s.pc.toNat)).isLoad = false →
        (t.a = s.a ∧ t.p.z = s.p.z ∧ t.p.n = s.p.n) ∧ (t'.a = s'.a ∧ t'.p.z = s'.p.z ∧ t'.p.n = s'.p.n)) ∧
      (t.y = s.y ∧ t.p.c = s.p.c ∧ t.p.i = s.p.i ∧ t.p.d = s.p.d ∧ t.p.b = s.p.b ∧ t.p.v = s.p.v) ∧
      (t'.y = s'.y ∧ t'.p.c = s'.p.c ∧ t'.p.i = s'.p.i ∧ t'.p.d = s'.p.d ∧ t'.p.b = s'.p.b ∧ t'.p.v = s'.p.v)

/-- 10_state.md R11, R16: the same of a whole run: the accumulator, `x[Y]` and the flags a run starts with never
reach `PC`, `SP`, `CYC`, the latch or memory. -/
def Obligations.ExecuteIgnoresUnreadState : Prop :=
  ∀ (p : Opcodes) (budget : Int) (s s' : State), s.AgreeOnRead s' →
    (execute p budget s).AgreeOnRead (execute p budget s')

/-- 10_state.md R20, the spec's decision D7 (log 7): in a counter of `w` bits, `w` at least four, a run that starts
with a budget the counter holds never leaves its range, at any instruction boundary. -/
def Obligations.CounterFitsItsWidth : Prop :=
  ∀ (p : Opcodes) (w : Nat) (budget : Int) (s t : State) (k : Nat), 4 ≤ w →
    -(2 : Int) ^ (w - 1) ≤ budget → budget < (2 : Int) ^ (w - 1) →
    instructions p k { s with cyc := budget } = some t →
    -(2 : Int) ^ (w - 1) ≤ t.cyc ∧ t.cyc < (2 : Int) ^ (w - 1)

/-! ### Invariants -/

/-- The invariant at reset: memory in its form, no fault, no overdraw. -/
def Obligations.ResetInv : Prop := State.reset.Inv

/-- Every step keeps the invariant, from every state that has it: memory stays in its canonical form with every listed
address below the capacity, the latch holds nothing but OutOfRange(65536) and only with `SP` at the top, and `CYC`
stays at -5 or more. -/
def Obligations.StepKeepsInv : Prop :=
  (∀ (p : Opcodes) (s t : State), s.Inv → stepWith p s = .next t → t.Inv) ∧
  (∀ s t : State, s.Inv → step s = .next t → t.Inv)

/-- Every host transaction, whole runs among them, keeps memory in its canonical form and nothing but the one
reachable fault in the latch. -/
def Obligations.HostKeepsSound : Prop :=
  ∀ (p : Opcodes) (t : Transaction) (pl : Platform), pl.Sound → (transact p t pl).2.Sound

/-! ### Memory -/

/-- The canonical form is canonical: memories in it that read the same at every address are equal (log 18). -/
def Obligations.EqualMemoriesAreEqualData : Prop :=
  ∀ m m' : Memory, m.wf = true → m'.wf = true → (∀ addr, addr < Config.capacity → m.get addr = m'.get addr) → m = m'

/-- 20_memory.md R36: a read after a write gives the value written, a write changes only the addressed byte or bytes,
and a read, of data or of the instruction stream, changes no byte. -/
def Obligations.StorageLaw : Prop :=
  (∀ (m : Memory) (addr : Nat) (v : Byte), m.wf = true → addr < Config.capacity →
    ∃ m', memWriteByte m addr v = .ok m' ∧ memRead m' addr = .ok v ∧
      ∀ other, other ≠ addr → memRead m' other = memRead m other) ∧
  (∀ (m m' : Memory) (addr : Nat) (v : Word), memWriteWord m addr v = .ok m' →
    ∀ other, other ≠ addr → other ≠ addr + 1 → memRead m' other = memRead m other) ∧
  (∀ (s : State) (addr : Nat), (readByte addr s).state.mem = s.mem ∧ (fetchByte s).state.mem = s.mem)

/-- 20_memory.md R33, R35: a word write is rejected exactly when either byte lies at or above the capacity, with the
lower such address; nothing wraps. That the low byte is not stored then is the spec's decision D4 (log 3). -/
def Obligations.WordWriteIsRejectedWhole : Prop :=
  ∀ (m : Memory) (addr : Nat) (v : Word),
    (memWriteWord m 65535 v = .outOfRange 65536) ∧
    (Config.capacity ≤ addr → memWriteWord m addr v = .outOfRange addr) ∧
    (addr + 1 < Config.capacity → ∃ m', memWriteWord m addr v = .ok m') ∧
    (∀ s : State, s.fault = none → writeWord 65535 v s = .abandoned { s with fault := some (.outOfRange 65536) })

/-- 20_memory.md R31, R32, R34: a byte access is rejected exactly when its address is at or above 65536, with that
address. -/
def Obligations.OutOfRangeExactlyAboveCapacity : Prop :=
  ∀ (m : Memory) (addr bad : Nat) (v : Byte),
    (memRead m addr = .outOfRange bad ↔ 65536 ≤ addr ∧ bad = addr) ∧
    (memWriteByte m addr v = .outOfRange bad ↔ 65536 ≤ addr ∧ bad = addr)

/-- 40_engine_loop.md R66: fetching a word is fetching two bytes, low byte first, also across the top of memory. -/
def Obligations.FetchWordIsTwoFetches : Prop :=
  ∀ s : State, fetchWord s =
    (fetchByte s).andThen fun lo t => (fetchByte t).andThen fun hi u => .done (joinBytes hi lo) u

/-! ### The host's transactions -/

/-- 10_state.md R22, 70_reset_and_hazards.md R100: what reset leaves, on any constructed machine. The values of `CYC`
and `FAULT` are the spec's decisions D8 and D6 (log 8). -/
def Obligations.ResetLeaves : Prop :=
  ∀ (p : Opcodes) (pl : Platform), pl ≠ .absent → ∃ s, transact p .reset pl = (.done, .live s) ∧
    s.pc = 0xFFFC#16 ∧ s.sp = 0x0100#16 ∧ s.a = 0#8 ∧ s.x = 0#8 ∧ s.y = 0#8 ∧
    (∀ f, s.p.get f = false) ∧ (∀ addr, s.byteAt addr = 0#8) ∧ s.cyc = 0 ∧ s.fault = none

/-- 70_reset_and_hazards.md R101: resetting twice is resetting once, and the state after reset does not depend on the
state before. -/
def Obligations.ResetIsIdempotent : Prop :=
  ∀ (p : Opcodes) (pl pl' : Platform), pl ≠ .absent → pl' ≠ .absent →
    transact p .reset (transact p .reset pl).2 = transact p .reset pl ∧
    transact p .reset pl = transact p .reset pl'

/-- 20_memory.md R36, 00_scope.md R6: what the host pokes it peeks, every other byte and all the rest of the state is
as before, and no cycle is charged. -/
def Obligations.PokeThenPeek : Prop :=
  ∀ (p : Opcodes) (s : State) (addr : Nat) (v : Byte), s.mem.wf = true → addr < 65536 →
    ∃ t, transact p (.poke addr v) (.live s) = (.done, .live t) ∧
      transact p (.peek addr) (.live t) = (.byte v, .live t) ∧ t = { s with mem := t.mem } ∧
      ∀ other, other ≠ addr → t.byteAt other = s.byteAt other

/-- 60_exceptions.md R87: a host access at or above the capacity is rejected and reported, and changes no state (the
spec's decision D21, log 14). -/
def Obligations.HostOutOfRangeChangesNothing : Prop :=
  ∀ (p : Opcodes) (s : State) (addr : Nat) (v : Byte), 65536 ≤ addr →
    transact p (.poke addr v) (.live s) = (.outOfRange addr, .live s) ∧
    transact p (.peek addr) (.live s) = (.outOfRange addr, .live s)

/-- 00_scope.md R6, R8: a preset writes exactly the register or flag it names, and an inspect answers the value of the
register, flag, `CYC` or `FAULT` it names and leaves the state as it was. That any register may be preset is the
spec's decision D9 (log 13). -/
def Obligations.PresetWritesOnlyWhatItNames : Prop :=
  ∀ (s : State) (v : Byte) (w : Word) (f : FlagName) (bit : Bool),
    applyPreset (.a v) s = { s with a := v } ∧ applyPreset (.x v) s = { s with x := v } ∧
    applyPreset (.y v) s = { s with y := v } ∧ applyPreset (.pc w) s = { s with pc := w } ∧
    applyPreset (.sp w) s = { s with sp := w } ∧
    applyPreset (.flag f bit) s = { s with p := (applyPreset (.flag f bit) s).p } ∧
    inspectReg (.flag f) (applyPreset (.flag f bit) s) = .bit bit ∧
    (∀ g, g ≠ f → inspectReg (.flag g) (applyPreset (.flag f bit) s) = inspectReg (.flag g) s) ∧
    inspectReg .a s = .byte s.a ∧ inspectReg .x s = .byte s.x ∧ inspectReg .y s = .byte s.y ∧
    inspectReg .pc s = .word s.pc ∧ inspectReg .sp s = .word s.sp ∧
    inspectReg .cyc s = .int s.cyc ∧ inspectReg .fault s = .latch s.fault ∧
    inspectReg (.flag .c) s = .bit s.p.c ∧ inspectReg (.flag .z) s = .bit s.p.z ∧
    inspectReg (.flag .i) s = .bit s.p.i ∧ inspectReg (.flag .d) s = .bit s.p.d ∧
    inspectReg (.flag .b) s = .bit s.p.b ∧ inspectReg (.flag .v) s = .bit s.p.v ∧
    inspectReg (.flag .n) s = .bit s.p.n ∧
    (∀ (p : Opcodes) (r : RegName), transact p (.inspect r) (.live s) = (.value (inspectReg r s), .live s)) ∧
    (∀ (p : Opcodes) (r : Preset), transact p (.preset r) (.live s) = (.done, .live (applyPreset r s)))

/-- 10_state.md R24: before the first reset the machine has no state to show: everything but reset leaves it without
one, and inspecting, peeking, presetting and executing are refused (the spec's decision D15, log 12). -/
def Obligations.NothingBeforeTheFirstReset : Prop :=
  ∀ (p : Opcodes) (t : Transaction), t ≠ .reset →
    (transact p t .constructed).2 = .constructed ∧
    ((∃ addr v, t = .poke addr v) ∨ ∃ r, (transact p t .constructed).1 = .refused r)

/-- 60_exceptions.md R93, the spec's decision D6 (log 4): a latched fault survives every transaction but reset,
`execute` changes nothing, and the host can still read. -/
def Obligations.FaultIsSticky : Prop :=
  ∀ (p : Opcodes) (s : State) (f : Fault), s.fault = some f →
    (∀ t, t ≠ .reset → ∃ r u, transact p t (.live s) = (r, .live u) ∧ u.fault = some f) ∧
    (∀ budget, transact p (.execute budget) (.live s) = (.done, .live s)) ∧
    (∀ addr, addr < 65536 → transact p (.peek addr) (.live s) = (.byte (s.byteAt addr), .live s)) ∧
    transact p .reset (.live s) = (.done, .live State.reset)

/-! ### Hazards -/

/-- 70_reset_and_hazards.md R104, 42_jsr.md R80: of two JSRs in a row the second stores its low byte over the first
one's high byte; `s2` is any state that has the first one's `SP` and memory. -/
def Obligations.ConsecutivePushesOverlap : Prop :=
  ∀ (t1 t2 : Word) (s1 u1 s2 u2 : State), s1.mem.wf = true → s1.sp.toNat + 2 < 65536 →
    exec (.jsr t1) s1 = .next u1 → s2.sp = u1.sp → s2.mem = u1.mem → exec (.jsr t2) s2 = .next u2 →
    u2.sp.toNat = s1.sp.toNat + 2 ∧
    (u2.byteAt s1.sp.toNat).toNat = (s1.pc - 1).toNat % 256 ∧
    (u2.byteAt (s1.sp.toNat + 1)).toNat = (s2.pc - 1).toNat % 256 ∧
    (u2.byteAt (s1.sp.toNat + 2)).toNat = (s2.pc - 1).toNat / 256

/-- 20_memory.md R46: the bytes a JSR stores are what a later fetch of them sees, with no other action. -/
def Obligations.StoredBytesAreFetched : Prop :=
  ∀ (abs16 : Word) (s t u : State), s.mem.wf = true → s.sp ≠ 0xFFFF#16 → exec (.jsr abs16) s = .next t →
    u.mem = t.mem → u.pc = s.sp →
    ∃ (v : Word) (w : State), fetchWord u = .done v w ∧ v = s.pc - 1
end

