-- ==== Sys2Proof/Laws/Bytes.lean ====
section
/-! SUPPORT. The byte-order helpers as numbers, and the two ends of a word. -/

namespace Sys2Proof

/-- `{hi, lo}` is `hi * 256 + lo` (00_scope.md section 5). -/
theorem joinBytes_toNat (hi lo : Byte) : (joinBytes hi lo).toNat = hi.toNat * 256 + lo.toNat := by
  have hlo := lo.isLt
  simp only [joinBytes, BitVec.toNat_append]
  rw [Nat.shiftLeft_eq, Nat.mul_comm, ← Nat.two_pow_add_eq_or_of_lt (i := 8) (by omega)]

theorem loByte_toNat (v : Word) : (loByte v).toNat = v.toNat % 256 := by
  simp [loByte, BitVec.extractLsb'_toNat]

theorem hiByte_toNat (v : Word) : (hiByte v).toNat = v.toNat / 256 := by
  have hv := v.isLt
  simp [hiByte, BitVec.extractLsb'_toNat, Nat.shiftRight_eq_div_pow]
  omega

theorem joinBytes_hiByte_loByte (v : Word) : joinBytes (hiByte v) (loByte v) = v := by
  apply BitVec.eq_of_toNat_eq
  rw [joinBytes_toNat, loByte_toNat, hiByte_toNat]
  omega

theorem loByte_joinBytes (hi lo : Byte) : loByte (joinBytes hi lo) = lo := by
  apply BitVec.eq_of_toNat_eq
  rw [loByte_toNat, joinBytes_toNat]
  omega

theorem hiByte_joinBytes (hi lo : Byte) : hiByte (joinBytes hi lo) = hi := by
  apply BitVec.eq_of_toNat_eq
  rw [hiByte_toNat, joinBytes_toNat]
  omega

/-- What the opcode byte decides, with the reason: the inversion of `decodeOpcode`. -/
theorem decodeOpcode_cases (p : Opcodes) (b : Byte) :
    (b = p.ldaImm ∧ decodeOpcode p b = .ldaImm) ∨ (b = p.ldaZp ∧ decodeOpcode p b = .ldaZp) ∨
    (b = p.ldaZpx ∧ decodeOpcode p b = .ldaZpx) ∨ (b = p.jsr ∧ decodeOpcode p b = .jsr) ∨
    (¬ p.Defines b ∧ decodeOpcode p b = .unrecognized b) := by
  unfold decodeOpcode Opcodes.Defines
  split_ifs <;> simp_all

end Sys2Proof
end

