-- ==== Sys2Proof/Laws/Memory.lean ====
section
/-! SUPPORT. The laws of memory: a read after a write, and the canonical form, which every operation keeps. -/

namespace Sys2Proof.Machine

@[simp] theorem Memory.get_nil (addr : Nat) : Memory.get [] addr = Config.fillByte := rfl

theorem Memory.wfFrom_mono {m : Memory} {lo lo' : Nat} (hle : lo' ≤ lo) (h : m.wfFrom lo = true) :
    m.wfFrom lo' = true := by
  cases m with
  | nil => rfl
  | cons c m =>
    simp only [Memory.wfFrom, Bool.and_eq_true, decide_eq_true_eq] at h ⊢
    exact ⟨⟨⟨hle.trans h.1.1.1, h.1.1.2⟩, h.1.2⟩, h.2⟩

/-- An address below every listed one holds the fill byte. -/
theorem Memory.get_below {m : Memory} {lo addr : Nat} (h : m.wfFrom lo = true) (hlt : addr < lo) :
    m.get addr = Config.fillByte := by
  induction m generalizing lo with
  | nil => rfl
  | cons c m ih =>
    obtain ⟨k, w⟩ := c
    simp only [Memory.wfFrom, Bool.and_eq_true, decide_eq_true_eq] at h
    have hne : k ≠ addr := by omega
    simpa [Memory.get, hne] using ih h.2 (by omega)

/-- A write leaves every other address as it was. -/
theorem Memory.get_set_ne {m : Memory} {addr other : Nat} {v : Byte} (hne : other ≠ addr) :
    (m.set addr v).get other = m.get other := by
  induction m with
  | nil => by_cases hv : v = Config.fillByte <;> simp [Memory.set, Memory.get, hv, hne.symm]
  | cons c m ih =>
    obtain ⟨k, w⟩ := c
    by_cases hlt : addr < k
    · by_cases hv : v = Config.fillByte <;> simp [Memory.set, Memory.get, hlt, hv, hne.symm]
    · by_cases heq : addr = k
      · subst heq
        by_cases hv : v = Config.fillByte <;> simp [Memory.set, Memory.get, hv, hne.symm]
      · simp [Memory.set, Memory.get, hlt, heq, ih]

theorem Memory.get_set_same_from {m : Memory} {lo addr : Nat} {v : Byte} (h : m.wfFrom lo = true) :
    (m.set addr v).get addr = v := by
  induction m generalizing lo with
  | nil => by_cases hv : v = Config.fillByte <;> simp [Memory.set, Memory.get, hv]
  | cons c m ih =>
    obtain ⟨k, w⟩ := c
    have hw := h
    simp only [Memory.wfFrom, Bool.and_eq_true, decide_eq_true_eq] at hw
    by_cases hlt : addr < k
    · have hk : k ≠ addr := by omega
      have hbelow : Memory.get m addr = Config.fillByte := Memory.get_below hw.2 (by omega)
      by_cases hv : v = Config.fillByte <;> simp [Memory.set, Memory.get, hlt, hv, hk, hbelow]
    · by_cases heq : addr = k
      · subst heq
        have hbelow : Memory.get m addr = Config.fillByte := Memory.get_below hw.2 (by omega)
        by_cases hv : v = Config.fillByte <;> simp [Memory.set, Memory.get, hv, hbelow]
      · have hk : k ≠ addr := fun h => heq h.symm
        simpa [Memory.set, Memory.get, hlt, heq, hk] using ih hw.2

/-- A read after a write to the same address gives the value written. -/
theorem Memory.get_set_same {m : Memory} {addr : Nat} {v : Byte} (h : m.wf = true) :
    (m.set addr v).get addr = v :=
  Memory.get_set_same_from h

theorem Memory.wfFrom_set {m : Memory} {lo addr : Nat} {v : Byte} (h : m.wfFrom lo = true) (hlo : lo ≤ addr)
    (hcap : addr < Config.capacity) : (m.set addr v).wfFrom lo = true := by
  induction m generalizing lo with
  | nil => by_cases hv : v = Config.fillByte <;> simp [Memory.set, Memory.wfFrom, hv, hlo, hcap]
  | cons c m ih =>
    obtain ⟨k, w⟩ := c
    have hw := h
    simp only [Memory.wfFrom, Bool.and_eq_true, decide_eq_true_eq] at hw
    obtain ⟨⟨⟨hk, hkc⟩, hwf⟩, hm⟩ := hw
    by_cases hlt : addr < k
    · by_cases hv : v = Config.fillByte
      · simpa [Memory.set, hlt, hv] using h
      · simp [Memory.set, Memory.wfFrom, hlt, hv, hlo, hcap, hkc, hwf, hm]
    · by_cases heq : addr = k
      · subst heq
        by_cases hv : v = Config.fillByte
        · simpa [Memory.set, hv] using Memory.wfFrom_mono (by omega) hm
        · simp [Memory.set, Memory.wfFrom, hv, hlo, hcap, hm]
      · simp [Memory.set, Memory.wfFrom, hlt, heq, hk, hkc, hwf, ih hm (by omega)]

theorem Memory.wf_set {m : Memory} {addr : Nat} {v : Byte} (h : m.wf = true) (hcap : addr < Config.capacity) :
    (m.set addr v).wf = true :=
  Memory.wfFrom_set h (Nat.zero_le _) hcap

theorem Memory.wf_initialize : Memory.initialize.wf = true := rfl

theorem State.wf_reset : State.reset.mem.wf = true := rfl

theorem memWriteByte_wf {m m' : Memory} {addr : Nat} {v : Byte} (h : memWriteByte m addr v = .ok m')
    (hm : m.wf = true) : m'.wf = true := by
  unfold memWriteByte at h
  split at h
  · cases h
  · cases h; exact Memory.wf_set hm (by omega)

theorem memWriteWord_wf {m m' : Memory} {addr : Nat} {v : Word} (h : memWriteWord m addr v = .ok m')
    (hm : m.wf = true) : m'.wf = true := by
  unfold memWriteWord at h
  split at h
  · cases h
  · split at h
    · cases h
    · cases h; exact Memory.wf_set (Memory.wf_set hm (by omega)) (by omega)

theorem word_lt_capacity (w : Word) : w.toNat < Config.capacity := w.isLt

theorem placeBytes_wf {m : Memory} {addr : Word} {bytes : List Byte} (hm : m.wf = true) :
    (placeBytes m addr bytes).wf = true := by
  induction bytes generalizing m addr with
  | nil => exact hm
  | cons b bytes ih => exact ih (Memory.wf_set hm (word_lt_capacity addr))

end Sys2Proof.Machine
end

