-- ==== Sys2Proof/Laws/State.lean ====
section
/-! SUPPORT. One lemma for each field under each update of the state, so that no proof unfolds an update. -/

namespace Sys2Proof.Machine

@[simp] theorem State.a_withA (s : State) (v : Byte) : (s.withA v).a = v := rfl
@[simp] theorem State.x_withA (s : State) (v : Byte) : (s.withA v).x = s.x := rfl
@[simp] theorem State.y_withA (s : State) (v : Byte) : (s.withA v).y = s.y := rfl
@[simp] theorem State.pc_withA (s : State) (v : Byte) : (s.withA v).pc = s.pc := rfl
@[simp] theorem State.sp_withA (s : State) (v : Byte) : (s.withA v).sp = s.sp := rfl
@[simp] theorem State.p_withA (s : State) (v : Byte) : (s.withA v).p = s.p := rfl
@[simp] theorem State.cyc_withA (s : State) (v : Byte) : (s.withA v).cyc = s.cyc := rfl
@[simp] theorem State.fault_withA (s : State) (v : Byte) : (s.withA v).fault = s.fault := rfl
@[simp] theorem State.mem_withA (s : State) (v : Byte) : (s.withA v).mem = s.mem := rfl

@[simp] theorem State.a_withX (s : State) (v : Byte) : (s.withX v).a = s.a := rfl
@[simp] theorem State.x_withX (s : State) (v : Byte) : (s.withX v).x = v := rfl
@[simp] theorem State.y_withX (s : State) (v : Byte) : (s.withX v).y = s.y := rfl
@[simp] theorem State.pc_withX (s : State) (v : Byte) : (s.withX v).pc = s.pc := rfl
@[simp] theorem State.sp_withX (s : State) (v : Byte) : (s.withX v).sp = s.sp := rfl
@[simp] theorem State.p_withX (s : State) (v : Byte) : (s.withX v).p = s.p := rfl
@[simp] theorem State.cyc_withX (s : State) (v : Byte) : (s.withX v).cyc = s.cyc := rfl
@[simp] theorem State.fault_withX (s : State) (v : Byte) : (s.withX v).fault = s.fault := rfl
@[simp] theorem State.mem_withX (s : State) (v : Byte) : (s.withX v).mem = s.mem := rfl

@[simp] theorem State.a_withY (s : State) (v : Byte) : (s.withY v).a = s.a := rfl
@[simp] theorem State.x_withY (s : State) (v : Byte) : (s.withY v).x = s.x := rfl
@[simp] theorem State.y_withY (s : State) (v : Byte) : (s.withY v).y = v := rfl
@[simp] theorem State.pc_withY (s : State) (v : Byte) : (s.withY v).pc = s.pc := rfl
@[simp] theorem State.sp_withY (s : State) (v : Byte) : (s.withY v).sp = s.sp := rfl
@[simp] theorem State.p_withY (s : State) (v : Byte) : (s.withY v).p = s.p := rfl
@[simp] theorem State.cyc_withY (s : State) (v : Byte) : (s.withY v).cyc = s.cyc := rfl
@[simp] theorem State.fault_withY (s : State) (v : Byte) : (s.withY v).fault = s.fault := rfl
@[simp] theorem State.mem_withY (s : State) (v : Byte) : (s.withY v).mem = s.mem := rfl

@[simp] theorem State.a_withPc (s : State) (v : Word) : (s.withPc v).a = s.a := rfl
@[simp] theorem State.x_withPc (s : State) (v : Word) : (s.withPc v).x = s.x := rfl
@[simp] theorem State.y_withPc (s : State) (v : Word) : (s.withPc v).y = s.y := rfl
@[simp] theorem State.pc_withPc (s : State) (v : Word) : (s.withPc v).pc = v := rfl
@[simp] theorem State.sp_withPc (s : State) (v : Word) : (s.withPc v).sp = s.sp := rfl
@[simp] theorem State.p_withPc (s : State) (v : Word) : (s.withPc v).p = s.p := rfl
@[simp] theorem State.cyc_withPc (s : State) (v : Word) : (s.withPc v).cyc = s.cyc := rfl
@[simp] theorem State.fault_withPc (s : State) (v : Word) : (s.withPc v).fault = s.fault := rfl
@[simp] theorem State.mem_withPc (s : State) (v : Word) : (s.withPc v).mem = s.mem := rfl

@[simp] theorem State.a_withSp (s : State) (v : Word) : (s.withSp v).a = s.a := rfl
@[simp] theorem State.x_withSp (s : State) (v : Word) : (s.withSp v).x = s.x := rfl
@[simp] theorem State.y_withSp (s : State) (v : Word) : (s.withSp v).y = s.y := rfl
@[simp] theorem State.pc_withSp (s : State) (v : Word) : (s.withSp v).pc = s.pc := rfl
@[simp] theorem State.sp_withSp (s : State) (v : Word) : (s.withSp v).sp = v := rfl
@[simp] theorem State.p_withSp (s : State) (v : Word) : (s.withSp v).p = s.p := rfl
@[simp] theorem State.cyc_withSp (s : State) (v : Word) : (s.withSp v).cyc = s.cyc := rfl
@[simp] theorem State.fault_withSp (s : State) (v : Word) : (s.withSp v).fault = s.fault := rfl
@[simp] theorem State.mem_withSp (s : State) (v : Word) : (s.withSp v).mem = s.mem := rfl

@[simp] theorem State.a_withP (s : State) (v : Status) : (s.withP v).a = s.a := rfl
@[simp] theorem State.x_withP (s : State) (v : Status) : (s.withP v).x = s.x := rfl
@[simp] theorem State.y_withP (s : State) (v : Status) : (s.withP v).y = s.y := rfl
@[simp] theorem State.pc_withP (s : State) (v : Status) : (s.withP v).pc = s.pc := rfl
@[simp] theorem State.sp_withP (s : State) (v : Status) : (s.withP v).sp = s.sp := rfl
@[simp] theorem State.p_withP (s : State) (v : Status) : (s.withP v).p = v := rfl
@[simp] theorem State.cyc_withP (s : State) (v : Status) : (s.withP v).cyc = s.cyc := rfl
@[simp] theorem State.fault_withP (s : State) (v : Status) : (s.withP v).fault = s.fault := rfl
@[simp] theorem State.mem_withP (s : State) (v : Status) : (s.withP v).mem = s.mem := rfl

@[simp] theorem State.a_withCyc (s : State) (v : Int) : (s.withCyc v).a = s.a := rfl
@[simp] theorem State.x_withCyc (s : State) (v : Int) : (s.withCyc v).x = s.x := rfl
@[simp] theorem State.y_withCyc (s : State) (v : Int) : (s.withCyc v).y = s.y := rfl
@[simp] theorem State.pc_withCyc (s : State) (v : Int) : (s.withCyc v).pc = s.pc := rfl
@[simp] theorem State.sp_withCyc (s : State) (v : Int) : (s.withCyc v).sp = s.sp := rfl
@[simp] theorem State.p_withCyc (s : State) (v : Int) : (s.withCyc v).p = s.p := rfl
@[simp] theorem State.cyc_withCyc (s : State) (v : Int) : (s.withCyc v).cyc = v := rfl
@[simp] theorem State.fault_withCyc (s : State) (v : Int) : (s.withCyc v).fault = s.fault := rfl
@[simp] theorem State.mem_withCyc (s : State) (v : Int) : (s.withCyc v).mem = s.mem := rfl

@[simp] theorem State.a_withFault (s : State) (v : Option Fault) : (s.withFault v).a = s.a := rfl
@[simp] theorem State.x_withFault (s : State) (v : Option Fault) : (s.withFault v).x = s.x := rfl
@[simp] theorem State.y_withFault (s : State) (v : Option Fault) : (s.withFault v).y = s.y := rfl
@[simp] theorem State.pc_withFault (s : State) (v : Option Fault) : (s.withFault v).pc = s.pc := rfl
@[simp] theorem State.sp_withFault (s : State) (v : Option Fault) : (s.withFault v).sp = s.sp := rfl
@[simp] theorem State.p_withFault (s : State) (v : Option Fault) : (s.withFault v).p = s.p := rfl
@[simp] theorem State.cyc_withFault (s : State) (v : Option Fault) : (s.withFault v).cyc = s.cyc := rfl
@[simp] theorem State.fault_withFault (s : State) (v : Option Fault) : (s.withFault v).fault = v := rfl
@[simp] theorem State.mem_withFault (s : State) (v : Option Fault) : (s.withFault v).mem = s.mem := rfl

@[simp] theorem State.a_withMem (s : State) (v : Memory) : (s.withMem v).a = s.a := rfl
@[simp] theorem State.x_withMem (s : State) (v : Memory) : (s.withMem v).x = s.x := rfl
@[simp] theorem State.y_withMem (s : State) (v : Memory) : (s.withMem v).y = s.y := rfl
@[simp] theorem State.pc_withMem (s : State) (v : Memory) : (s.withMem v).pc = s.pc := rfl
@[simp] theorem State.sp_withMem (s : State) (v : Memory) : (s.withMem v).sp = s.sp := rfl
@[simp] theorem State.p_withMem (s : State) (v : Memory) : (s.withMem v).p = s.p := rfl
@[simp] theorem State.cyc_withMem (s : State) (v : Memory) : (s.withMem v).cyc = s.cyc := rfl
@[simp] theorem State.fault_withMem (s : State) (v : Memory) : (s.withMem v).fault = s.fault := rfl
@[simp] theorem State.mem_withMem (s : State) (v : Memory) : (s.withMem v).mem = v := rfl

@[simp] theorem setLoadFlags_a (s : State) : (setLoadFlags s).a = s.a := rfl
@[simp] theorem setLoadFlags_x (s : State) : (setLoadFlags s).x = s.x := rfl
@[simp] theorem setLoadFlags_y (s : State) : (setLoadFlags s).y = s.y := rfl
@[simp] theorem setLoadFlags_pc (s : State) : (setLoadFlags s).pc = s.pc := rfl
@[simp] theorem setLoadFlags_sp (s : State) : (setLoadFlags s).sp = s.sp := rfl
@[simp] theorem setLoadFlags_cyc (s : State) : (setLoadFlags s).cyc = s.cyc := rfl
@[simp] theorem setLoadFlags_fault (s : State) : (setLoadFlags s).fault = s.fault := rfl
@[simp] theorem setLoadFlags_mem (s : State) : (setLoadFlags s).mem = s.mem := rfl

theorem setLoadFlags_p (s : State) :
    (setLoadFlags s).p = { s.p with z := zeroFlag s.a, n := negativeFlag s.a } := rfl

end Sys2Proof.Machine
end

