-- ==== Sys2Proof/Laws/Ops.lean ====
section
/-! SUPPORT. What each shared operation can do, said once; callers cite these and do not unfold the operation. -/

namespace Sys2Proof.Machine

theorem memRead_of_lt {m : Memory} {addr : Nat} (h : addr < Config.capacity) : memRead m addr = .ok (m.get addr) := by
  simp [memRead, h]

/-- A read at a 16-bit address never leaves the AddressSpace (20_memory.md R34). -/
theorem memRead_word (m : Memory) (w : Word) : memRead m w.toNat = .ok (m.get w.toNat) :=
  memRead_of_lt (word_lt_capacity w)

/-- `FetchByte()` (40_engine_loop.md R65) never faults. -/
theorem fetchByte_eq (s : State) :
    fetchByte s = .done (s.byteAt s.pc.toNat) { s with pc := s.pc + 1, cyc := s.cyc - 1 } := by
  unfold fetchByte; rw [memRead_word]; rfl

/-- `FetchWord()` (40_engine_loop.md R66) never faults. -/
theorem fetchWord_eq (s : State) :
    fetchWord s = .done (joinBytes (s.byteAt (s.pc + 1).toNat) (s.byteAt s.pc.toNat))
      { s with pc := s.pc + 2, cyc := s.cyc - 2 } := by
  unfold fetchWord; simp only [memRead_word]; rfl

/-- `ReadByte(addr)` (40_engine_loop.md R67) at a 16-bit address. -/
theorem readByte_word (w : Word) (s : State) :
    readByte w.toNat s = .done (s.byteAt w.toNat) { s with cyc := s.cyc - 1 } := by
  unfold readByte; rw [memRead_word]; rfl

/-- `WriteWord(SP, v)` (40_engine_loop.md R68) below the top of the address space: both bytes land. -/
theorem writeWord_below (w v : Word) (s : State) (h : w ≠ 0xFFFF#16) :
    writeWord w.toNat v s = .done ()
      { s with mem := (s.mem.set w.toNat (loByte v)).set (w.toNat + 1) (hiByte v), cyc := s.cyc - 2 } := by
  have hlt := w.isLt
  have hne : w.toNat ≠ 65535 := fun h' => h (BitVec.eq_of_toNat_eq (by simpa using h'))
  have h1 : ¬ Config.capacity ≤ w.toNat := by simp only [Config.capacity]; omega
  have h2 : ¬ Config.capacity ≤ w.toNat + 1 := by simp only [Config.capacity]; omega
  simp only [writeWord, memWriteWord, h1, h2, if_false]
  rfl

/-- `WriteWord(0xFFFF, v)` is rejected on its high byte, and the latch is all that changes (20_memory.md R33). -/
theorem writeWord_top (v : Word) (s : State) :
    writeWord (0xFFFF#16).toNat v s = .abandoned { s with fault := some (.outOfRange Config.capacity) } := rfl

/-- A word at the top of the address space or below it. -/
theorem word_top_or_below (w : Word) : w = 0xFFFF#16 ∨ w ≠ 0xFFFF#16 := eq_or_ne _ _

/-- The address after a word below the top, as a number and as a word. -/
theorem toNat_succ {w : Word} (h : w ≠ 0xFFFF#16) : (w + 1).toNat = w.toNat + 1 := by
  have hne : w.toNat ≠ 65535 := fun h' => h (BitVec.eq_of_toNat_eq (by simpa using h'))
  have hlt := w.isLt
  have hone : (1 : Word).toNat = 1 := rfl
  rw [BitVec.toNat_add, hone]
  omega

/-- A byte of a state with another memory. -/
theorem State.byteAt_mem (s : State) (addr : Nat) : s.byteAt addr = s.mem.get addr := rfl

theorem zeroPageAddress_toNat (zp8 : Byte) : (zeroPageAddress zp8).toNat = zp8.toNat := by
  have := zp8.isLt
  simp only [zeroPageAddress, BitVec.truncate_eq_setWidth, BitVec.toNat_setWidth]
  omega

theorem zeroPageXAddress_toNat (zp8 x : Byte) : (zeroPageXAddress zp8 x).toNat = (zp8 + x).toNat := by
  have := (zp8 + x).isLt
  simp only [zeroPageXAddress, BitVec.truncate_eq_setWidth, BitVec.toNat_setWidth]
  omega

/-- `execLdaImm` in one equation (41_load.md R76). -/
theorem execLdaImm_eq (v : Byte) (s : State) : execLdaImm v s = .next (setLoadFlags { s with a := v }) := rfl

/-- `execLdaZp` in one equation (41_load.md R77). -/
theorem execLdaZp_eq (zp8 : Byte) (s : State) :
    execLdaZp zp8 s = .next (setLoadFlags { s with a := s.byteAt (zeroPageAddress zp8).toNat, cyc := s.cyc - 1 }) := by
  unfold execLdaZp; rw [readByte_word]; rfl

/-- `execLdaZpx` in one equation (41_load.md R78). -/
theorem execLdaZpx_eq (zp8 : Byte) (s : State) :
    execLdaZpx zp8 s =
      .next (setLoadFlags { s with a := s.byteAt (zeroPageXAddress zp8 s.x).toNat, cyc := s.cyc - 1 - 1 }) := by
  unfold execLdaZpx; rw [readByte_word]; rfl

/-- `execJsr` where the stack word fits (42_jsr.md R80). -/
theorem execJsr_below (abs16 : Word) (s : State) (h : s.sp ≠ 0xFFFF#16) :
    execJsr abs16 s = .next
      { s with
        pc := abs16, sp := s.sp + 1, cyc := s.cyc - 2 - 1,
        mem := (s.mem.set s.sp.toNat (loByte (returnWord s))).set (s.sp.toNat + 1) (hiByte (returnWord s)) } := by
  unfold execJsr; rw [writeWord_below _ _ _ h]; rfl

/-- `execJsr` at the top of the address space: fault entry, and nothing else (60_exceptions.md R86). -/
theorem execJsr_top (abs16 : Word) (s : State) (h : s.sp = 0xFFFF#16) :
    execJsr abs16 s = .next { s with fault := some (.outOfRange Config.capacity) } := by
  have hw : writeWord s.sp.toNat (returnWord s) s =
      .abandoned { s with fault := some (.outOfRange Config.capacity) } := by
    simpa only [h] using writeWord_top (returnWord s) s
  unfold execJsr; rw [hw]; rfl

end Sys2Proof.Machine
end

