-- ==== Sys2Proof/Laws/PerInstr.lean ====
section
/-! SUPPORT. Statements about every instruction as syntax, one lemma per constructor. -/

namespace Sys2Proof.Laws.EncodingLength

/-- An instruction's bytes are as many as its format says, and at most three (30_encoding.md R50, R51). -/
def Statement (i : Instr) : Prop :=
  ∀ p : Opcodes, (encode p i).length = i.length ∧ i.length ≤ 3

theorem ldaImm (imm8 : Byte) : Statement (.ldaImm imm8) := fun _ => ⟨rfl, Nat.le_of_ble_eq_true rfl⟩

theorem ldaZp (zp8 : Byte) : Statement (.ldaZp zp8) := fun _ => ⟨rfl, Nat.le_of_ble_eq_true rfl⟩

theorem ldaZpx (zp8 : Byte) : Statement (.ldaZpx zp8) := fun _ => ⟨rfl, Nat.le_of_ble_eq_true rfl⟩

theorem jsr (abs16 : Word) : Statement (.jsr abs16) := fun _ => ⟨rfl, Nat.le_of_ble_eq_true rfl⟩

theorem unrecognized (opcode : Byte) : Statement (.unrecognized opcode) := fun _ => ⟨rfl, Nat.le_of_ble_eq_true rfl⟩

end Sys2Proof.Laws.EncodingLength
end

