-- ==== Sys2Proof/Laws/Step.lean ====
section
/-! SUPPORT. What one step can do, said once. -/

namespace Sys2Proof.Machine

/-- The instruction at `PC` and the state its fetch leaves: the fetch never faults, and changes `PC` and `CYC` only. -/
theorem fetchInstr_done (p : Opcodes) (s : State) :
    ∃ i, fetchInstr p s = .done i { s with pc := s.pc + BitVec.ofNat 16 i.length, cyc := s.cyc - i.length } ∧
      i.operation = decodeOpcode p (s.byteAt s.pc.toNat) := by
  unfold fetchInstr
  simp only [fetchByte_eq, fetchWord_eq, Attempt.andThen]
  split <;>
    · rename_i heq
      refine ⟨_, congrArg₂ Attempt.done rfl ?_, by rw [heq]; rfl⟩
      simp only [Instr.length, Instr.operation, Operation.format, Format.length]
      congr 1 <;> first | omega | (rw [BitVec.add_assoc]; rfl)

/-- A running step is the meaning of the fetched instruction. -/
theorem stepWith_running {p : Opcodes} {s t : State} {i : Instr} (hf : s.fault = none) (hc : 0 < s.cyc)
    (h : fetchInstr p s = .done i t) : stepWith p s = exec i t := by
  unfold stepWith; rw [hf]; simp only [hc, if_true, h]

theorem stepWith_idle {p : Opcodes} {s : State} (hf : s.fault = none) (hc : s.cyc ≤ 0) : stepWith p s = .next s := by
  unfold stepWith; rw [hf]; simp only [Int.not_lt.mpr hc, if_false]

theorem stepWith_faulted {p : Opcodes} {s : State} {f : Fault} (hf : s.fault = some f) : stepWith p s = .fault f := by
  unfold stepWith; rw [hf]

theorem running_iff {s : State} : running s = true ↔ 0 < s.cyc ∧ s.fault = none := by
  simp [running, Option.isNone_iff_eq_none]

/-- Everything an instruction can do from the state its fetch left: a load of some byte, a call, the fault at the top
of the stack, or nothing. -/
theorem exec_cases (i : Instr) (s : State) :
    (∃ v, ∃ k : Nat, k ≤ 2 ∧ exec i s = .next (setLoadFlags { s with a := v, cyc := s.cyc - k }) ∧
      ((i = .ldaImm v ∧ k = 0) ∨
        (∃ zp8, i = .ldaZp zp8 ∧ k = 1 ∧ v = s.byteAt (zeroPageAddress zp8).toNat) ∨
        (∃ zp8, i = .ldaZpx zp8 ∧ k = 2 ∧ v = s.byteAt (zeroPageXAddress zp8 s.x).toNat))) ∨
    (∃ abs16, i = .jsr abs16 ∧ s.sp ≠ 0xFFFF#16 ∧ exec i s = .next
      { s with
        pc := abs16, sp := s.sp + 1, cyc := s.cyc - 2 - 1,
        mem := (s.mem.set s.sp.toNat (loByte (returnWord s))).set (s.sp.toNat + 1) (hiByte (returnWord s)) }) ∨
    (∃ abs16, i = .jsr abs16 ∧ s.sp = 0xFFFF#16 ∧
      exec i s = .next { s with fault := some (.outOfRange Config.capacity) }) ∨
    (∃ b, i = .unrecognized b ∧ exec i s = .next s) := by
  cases i with
  | ldaImm v => exact .inl ⟨v, 0, by omega, by simp [exec, execLdaImm_eq], .inl ⟨rfl, rfl⟩⟩
  | ldaZp zp8 => exact .inl ⟨_, 1, by omega, execLdaZp_eq zp8 s, .inr (.inl ⟨zp8, rfl, rfl, rfl⟩)⟩
  | ldaZpx zp8 =>
    refine .inl ⟨_, 2, by omega, (execLdaZpx_eq zp8 s).trans ?_, .inr (.inr ⟨zp8, rfl, rfl, rfl⟩)⟩
    rw [Int.sub_sub]; rfl
  | jsr abs16 =>
    rcases word_top_or_below s.sp with h | h
    · exact .inr (.inr (.inl ⟨abs16, rfl, h, execJsr_top abs16 s h⟩))
    · exact .inr (.inl ⟨abs16, rfl, h, execJsr_below abs16 s h⟩)
  | unrecognized b => exact .inr (.inr (.inr ⟨b, rfl, rfl⟩))

/-- Everything one step can do: stop on the latch, stay idle, or run the fetched instruction. -/
theorem stepWith_cases (p : Opcodes) (s : State) :
    (∃ f, s.fault = some f ∧ stepWith p s = .fault f) ∨
    (s.fault = none ∧ s.cyc ≤ 0 ∧ stepWith p s = .next s) ∨
    (s.fault = none ∧ 0 < s.cyc ∧ ∃ i, i.operation = decodeOpcode p (s.byteAt s.pc.toNat) ∧
      stepWith p s = exec i { s with pc := s.pc + BitVec.ofNat 16 i.length, cyc := s.cyc - i.length }) := by
  rcases Option.eq_none_or_eq_some s.fault with hf | ⟨f, hf⟩
  · rcases Int.lt_or_le 0 s.cyc with hc | hc
    · obtain ⟨i, hi, hop⟩ := fetchInstr_done p s
      exact .inr (.inr ⟨hf, hc, i, hop, stepWith_running hf hc hi⟩)
    · exact .inr (.inl ⟨hf, hc, stepWith_idle hf hc⟩)
  · exact .inl ⟨f, hf, stepWith_faulted hf⟩

/-- What a step that answers a next state did, said as the change of the whole state: it stayed idle, or it ran a load
of some byte, a JSR that fits, a JSR that faults, or an unrecognized opcode. -/
theorem stepWith_next_cases {p : Opcodes} {s t : State} (h : stepWith p s = .next t) :
    (s.fault = none ∧ s.cyc ≤ 0 ∧ t = s) ∨
    (s.fault = none ∧ 0 < s.cyc ∧
      ((∃ (v : Byte) (n : Nat), 2 ≤ n ∧ n ≤ 4 ∧ (decodeOpcode p (s.byteAt s.pc.toNat)).isLoad = true ∧
          t = setLoadFlags { s with a := v, pc := s.pc + 2, cyc := s.cyc - n }) ∨
        (s.sp ≠ 0xFFFF#16 ∧ decodeOpcode p (s.byteAt s.pc.toNat) = .jsr ∧ ∃ target, t =
          { s with
            pc := target, sp := s.sp + 1, cyc := s.cyc - 6,
            mem := (s.mem.set s.sp.toNat (loByte (s.pc + 2))).set (s.sp.toNat + 1) (hiByte (s.pc + 2)) }) ∨
        (s.sp = 0xFFFF#16 ∧ decodeOpcode p (s.byteAt s.pc.toNat) = .jsr ∧
          t = { s with pc := s.pc + 3, cyc := s.cyc - 3, fault := some (.outOfRange Config.capacity) }) ∨
        ((∃ b, decodeOpcode p (s.byteAt s.pc.toNat) = .unrecognized b) ∧ t = { s with pc := s.pc + 1, cyc := s.cyc - 1 }))) := by
  rcases stepWith_cases p s with ⟨f, hf, hs⟩ | ⟨hf, hc, hs⟩ | ⟨hf, hc, i, hop, hs⟩
  · rw [hs] at h; cases h
  · rw [hs] at h; cases h; exact .inl ⟨hf, hc, rfl⟩
  refine .inr ⟨hf, hc, ?_⟩
  replace h := hs.symm.trans h
  rw [← hop]
  rcases exec_cases i { s with pc := s.pc + BitVec.ofNat 16 i.length, cyc := s.cyc - i.length } with
    ⟨v, k, hk, he, hi⟩ | ⟨target, rfl, hsp, he⟩ | ⟨target, rfl, hsp, he⟩ | ⟨b, rfl, he⟩
  · rw [he] at h; cases h
    have hlen : i.length = 2 ∧ i.operation.isLoad = true := by
      rcases hi with ⟨rfl, -⟩ | ⟨z, rfl, -⟩ | ⟨z, rfl, -⟩ <;> exact ⟨rfl, rfl⟩
    refine .inl ⟨v, 2 + k, by omega, by omega, hlen.2, ?_⟩
    simp only [hlen.1, Int.sub_sub]; congr 2
  · rw [he] at h; cases h
    have hret : s.pc + 3 - 1 = s.pc + 2 := by bv_omega
    refine .inr (.inl ⟨hsp, rfl, target, ?_⟩)
    simp only [Int.sub_sub, Instr.length, Instr.operation, Operation.format, Format.length, returnWord, ← hret]; rfl
  · rw [he] at h; cases h; exact .inr (.inr (.inl ⟨hsp, rfl, rfl⟩))
  · rw [he] at h; cases h; exact .inr (.inr (.inr ⟨⟨b, rfl⟩, rfl⟩))

/-- The loop turns no more in a state that is not running. -/
theorem engineLoop_stopped {p : Opcodes} {fuel : Nat} {s : State} (h : running s = false) : engineLoop p fuel s = s := by
  cases fuel <;> simp [engineLoop, h]

/-- One turn of the loop is one step. -/
theorem engineLoop_turn {p : Opcodes} {fuel : Nat} {s t : State} (h : running s = true) (hs : stepWith p s = .next t) :
    engineLoop p (fuel + 1) s = engineLoop p fuel t := by
  simp [engineLoop, h, hs]

end Sys2Proof.Machine
end

