-- ==== Sys2Proof/Tests/Slice0.lean ====
section
/-! SUPPORT. Tests on fixed values, each expected result taken from the spec, and the witnesses of the statements'
hypotheses. Vector numbers are those of 95_test_vectors.md; bytes are the default opcode values (log 1). -/

namespace Sys2Proof.Tests

open Sys2Proof.Machine

/-! ### Helpers -/

/-- The reset state with a memory and a budget. -/
def loaded (mem : Memory) (cyc : Int) : State := { State.reset with mem := mem, cyc := cyc }

/-- What a test checks of the next state; false where there is none. -/
def nextSatisfies (o : Host.Outcome State Fault Refusal) (q : State → Bool) : Bool :=
  match o with
  | .next t => q t
  | .fault _ => false
  | .refused _ => false

/-- S4: `LDA #$84` at the entry point. -/
def ldaImmState : State := loaded [(0xFFFC, 0xA9#8), (0xFFFD, 0x84#8)] 2

/-- S5, with a byte that is not zero: `LDA $42`. -/
def ldaZpState : State := loaded [(0x0042, 0x9C#8), (0xFFFC, 0xA5#8), (0xFFFD, 0x42#8)] 3

/-- 2.4 row 2: `LDA $FF,X` with `x[X]` = 1, and a byte just above the zero page. -/
def ldaZpxState : State :=
  { loaded [(0x0000, 0x5A#8), (0x0100, 0xEE#8), (0xFFFC, 0xB5#8), (0xFFFD, 0xFF#8)] 4 with x := 0x01#8 }

/-- 2.5 row 3: `JSR $1234`. -/
def jsrState : State := loaded [(0xFFFC, 0x20#8), (0xFFFD, 0x34#8), (0xFFFE, 0x12#8)] 6

/-- 2.5 row 4: a JSR with `SP` = 0xFFFE, the last that fits. -/
def jsrHighState : State := { jsrState with sp := 0xFFFE#16 }

/-- 2.5 row 5: a JSR with `SP` = 0xFFFF, budget ten. -/
def jsrFaultState : State := { jsrState with sp := 0xFFFF#16, cyc := 10 }

/-- S8: the byte 0xFF at the entry point. -/
def unknownState : State := loaded [(0xFFFC, 0xFF#8)] 1

/-- A state with the one reachable fault latched. -/
def faultedState : State := { jsrFaultState with fault := some (.outOfRange 65536) }

/-! ### Well-formedness: each check refuses an ill-formed term -/

theorem test_wellFormed_refuses_ldaImm_byte : (Instr.unrecognized 0xA9#8).wellFormed tableOpcodes = false := by decide
theorem test_wellFormed_refuses_ldaZp_byte : (Instr.unrecognized 0xA5#8).wellFormed tableOpcodes = false := by decide
theorem test_wellFormed_refuses_ldaZpx_byte : (Instr.unrecognized 0xB5#8).wellFormed tableOpcodes = false := by decide
theorem test_wellFormed_refuses_jsr_byte : (Instr.unrecognized 0x20#8).wellFormed tableOpcodes = false := by decide
theorem test_wellFormed_admits_0xFF : (Instr.unrecognized 0xFF#8).wellFormed tableOpcodes = true := by decide
theorem test_legal_refuses_equal_bytes : ¬ ({ tableOpcodes with jsr := 0xA9#8 } : Opcodes).Legal := by decide
theorem test_legal_refuses_0xFF : ¬ ({ tableOpcodes with jsr := 0xFF#8 } : Opcodes).Legal := by decide

/-! ### Decoding: words written out from the formats of 30_encoding.md R51, high byte of the number last in memory -/

theorem test_decode_ldaImm : decodeTableWord 16 0b10000100_10101001 = some (.ldaImm 0x84#8) := by decide
theorem test_decode_ldaZp : decodeTableWord 16 0b01000010_10100101 = some (.ldaZp 0x42#8) := by decide
theorem test_decode_ldaZpx : decodeTableWord 16 0b11111111_10110101 = some (.ldaZpx 0xFF#8) := by decide
theorem test_decode_jsr : decodeTableWord 24 0b00010010_00110100_00100000 = some (.jsr 0x1234#16) := by decide
theorem test_decode_unrecognized : decodeTableWord 8 0b11111111 = some (.unrecognized 0xFF#8) := by decide
theorem test_decode_zero : decodeTableWord 8 0 = some (.unrecognized 0x00#8) := by decide
theorem test_decode_one_bit_off : decodeTableWord 8 0b10101000 = some (.unrecognized 0xA8#8) := by decide
theorem test_decode_short_word : decodeTableWord 8 0x20 = some (.jsr 0x0000#16) := by decide
theorem test_encode_jsr : encode tableOpcodes (.jsr 0x1234#16) = [0x20#8, 0x34#8, 0x12#8] := by decide
theorem test_decode_truncated : decodeBytes tableOpcodes [0x20#8, 0x34#8] = .error (.truncated .jsr) := rfl

/-! ### One step of each instruction -/

/-- S4. -/
theorem test_ldaImm_step : nextSatisfies (step ldaImmState) (fun t =>
    t.a == 0x84#8 && !t.p.z && t.p.n && t.pc == 0xFFFE#16 && t.cyc == 0) = true := by decide

/-- 2.2 row 7: the operand is fetched across the top of memory (D2). -/
theorem test_ldaImm_wraps : nextSatisfies
    (step { loaded [(0x0000, 0x80#8), (0xFFFF, 0xA9#8)] 2 with pc := 0xFFFF#16 })
    (fun t => t.a == 0x80#8 && t.pc == 0x0001#16) = true := by decide

/-- 2.3 row 1, at another address. -/
theorem test_ldaZp_step : nextSatisfies (step ldaZpState) (fun t =>
    t.a == 0x9C#8 && !t.p.z && t.p.n && t.pc == 0xFFFE#16 && t.cyc == 0) = true := by decide

/-- S5: loading zero sets `P.Z`, with one cycle of budget (2.3 row 5). -/
theorem test_ldaZp_zero_overdraws : nextSatisfies (step (loaded [(0xFFFC, 0xA5#8), (0xFFFD, 0x42#8)] 1)) (fun t =>
    t.a == 0x00#8 && t.p.z && !t.p.n && t.cyc == -2) = true := by decide

/-- 2.4 row 2: the sum wraps inside the zero page. -/
theorem test_ldaZpx_wraps : nextSatisfies (step ldaZpxState) (fun t =>
    t.a == 0x5A#8 && t.x == 0x01#8 && !t.p.c && t.cyc == 0) = true := by decide

/-- 2.4 row 4: `x[X]` = 0xFF counts down by one. -/
theorem test_ldaZpx_unsigned_index : nextSatisfies
    (step { loaded [(0x007F, 0x80#8), (0x017F, 0xEE#8), (0xFFFC, 0xB5#8), (0xFFFD, 0x80#8)] 4 with x := 0xFF#8 })
    (fun t => t.a == 0x80#8 && t.p.n) = true := by decide

/-- 2.5 rows 1 and 3: target low byte first, return word at the old `SP`, `SP` up by one. -/
theorem test_jsr_step : nextSatisfies (step jsrState) (fun t =>
    t.pc == 0x1234#16 && t.sp == 0x0101#16 && t.cyc == 0 && t.byteAt 0x0100 == 0xFE#8 && t.byteAt 0x0101 == 0xFF#8)
    = true := by decide

/-- 2.5 row 5, P6: the fault at the top of the stack. -/
theorem test_jsr_fault : nextSatisfies (step jsrFaultState) (fun t =>
    t.fault == some (.outOfRange 65536) && t.pc == 0xFFFF#16 && t.sp == 0xFFFF#16 && t.cyc == 7 &&
    t.mem == jsrFaultState.mem) = true := by decide

/-- S8. -/
theorem test_unrecognized_step : nextSatisfies (step unknownState) (fun t =>
    decide (t = { unknownState with pc := 0xFFFD#16, cyc := 0 })) = true := by decide

/-- 2.7 row 1, and R86: the idle and the faulted machine. -/
theorem test_idle_step : nextSatisfies (step { ldaImmState with cyc := 0 }) (fun t => t.pc == 0xFFFC#16) = true := by
  decide
theorem test_faulted_step : step faultedState = .fault (.outOfRange 65536) := rfl

/-- The first instruction after reset, placed by `withFetchWord` (log 10). -/
theorem test_withFetchWord_runs : nextSatisfies (step (State.reset.withFetchWord 24 0x424220)) (fun t =>
    t.pc == 0x4242#16 && t.byteAt 0x0100 == 0xFE#8 && t.byteAt 0x0101 == 0xFF#8) = true := by decide

/-! ### The host's side -/

/-- 2.7 row 2: a negative budget is loaded and nothing runs. -/
theorem test_execute_negative : execute tableOpcodes (-7) ldaImmState = { ldaImmState with cyc := -7 } := by decide

/-- S2: a host access at the capacity is rejected. -/
theorem test_peek_rejected :
    transact tableOpcodes (.peek 65536) (.live State.reset) = (.outOfRange 65536, .live State.reset) := by decide

/-- Writing the fill byte removes the entry (log 18). -/
theorem test_memory_canonical : (Memory.set [(0x0042, 0x01#8)] 0x0042 0x00#8) = [] := by decide

/-- S8: the optional diagnostic. -/
theorem test_diagnostic : diagnosticsOfStep tableOpcodes unknownState = [.unrecognizedOpcode 0xFF#8] := by decide

/-! ### Witnesses: states and operands that meet the hypotheses of each statement -/

theorem witness_Legal : tableOpcodes.Legal := by decide

theorem witness_DecodeOpcodeIsTheMap : tableOpcodes.Legal ∧ 0xFF#8 ≠ tableOpcodes.ldaImm ∧
    0xFF#8 ≠ tableOpcodes.ldaZp ∧ 0xFF#8 ≠ tableOpcodes.ldaZpx ∧ 0xFF#8 ≠ tableOpcodes.jsr := by decide

theorem witness_DecodeEncode : tableOpcodes.Legal ∧ (Instr.unrecognized 0xFF#8).wellFormed tableOpcodes = true ∧
    (Instr.jsr 0xFFFF#16).wellFormed tableOpcodes = true := by decide

theorem witness_EncodeDecode :
    decodeBytes tableOpcodes [0x20#8, 0x34#8, 0x12#8, 0x00#8] = .ok (.jsr 0x1234#16, [0x00#8]) := rfl

theorem witness_StepRunsTheDecodedInstruction : jsrState.fault = none ∧ 0 < jsrState.cyc ∧
    decodeBytes tableOpcodes jsrState.bytesAtPc = .ok (.jsr 0x1234#16, []) := ⟨rfl, by decide, rfl⟩

theorem witness_LittleEndianEverywhere : tableOpcodes.Legal ∧ Memory.wf [(65534, 0x01#8)] = true ∧
    65534 + 1 < Config.capacity := by decide

theorem witness_AbsoluteOperand : jsrHighState.sp ≠ 0xFFFF#16 := by decide

theorem witness_SetLoadFlags : (0x00#8).toNat = 0 ∧ (0x01 ≤ (0x01#8).toNat ∧ (0x01#8).toNat ≤ 0x7F) ∧
    (0x01 ≤ (0x7F#8).toNat ∧ (0x7F#8).toNat ≤ 0x7F) ∧ 0x80 ≤ (0x80#8).toNat ∧ 0x80 ≤ (0xFF#8).toNat := by decide

theorem witness_LoadFlags_FrameOfLoads : (∃ t, exec (.ldaImm 0x00#8) ldaImmState = .next t) ∧
    (∃ t, exec (.ldaZp 0xFF#8) ldaZpState = .next t) ∧ (∃ t, exec (.ldaZpx 0xFF#8) ldaZpxState = .next t) :=
  ⟨⟨_, rfl⟩, ⟨_, rfl⟩, ⟨_, rfl⟩⟩

theorem witness_ExecJsrCompletes : jsrHighState.sp ≠ 0xFFFF#16 ∧ jsrHighState.mem.wf = true := by decide

theorem witness_LdaImmStep : tableOpcodes.Legal ∧ ldaImmState.fault = none ∧ 0 < ldaImmState.cyc ∧
    ldaImmState.byteAt ldaImmState.pc.toNat = tableOpcodes.ldaImm := by decide

theorem witness_LdaZpStep : tableOpcodes.Legal ∧ ldaZpState.fault = none ∧ 0 < ldaZpState.cyc ∧
    ldaZpState.byteAt ldaZpState.pc.toNat = tableOpcodes.ldaZp ∧
    0x9C#8 = ldaZpState.byteAt (ldaZpState.byteAt (ldaZpState.pc + 1).toNat).toNat := by decide

theorem witness_LdaZpxStep : tableOpcodes.Legal ∧ ldaZpxState.fault = none ∧ 0 < ldaZpxState.cyc ∧
    ldaZpxState.byteAt ldaZpxState.pc.toNat = tableOpcodes.ldaZpx ∧
    0x5A#8 = ldaZpxState.byteAt
      (((ldaZpxState.byteAt (ldaZpxState.pc + 1).toNat).toNat + ldaZpxState.x.toNat) % 256) := by decide

theorem witness_JsrStep : tableOpcodes.Legal ∧ jsrHighState.fault = none ∧ 0 < jsrHighState.cyc ∧
    jsrHighState.byteAt jsrHighState.pc.toNat = tableOpcodes.jsr ∧ jsrHighState.sp ≠ 0xFFFF#16 ∧
    jsrHighState.mem.wf = true := by decide

theorem witness_JsrFaultStep : tableOpcodes.Legal ∧ jsrFaultState.fault = none ∧ 0 < jsrFaultState.cyc ∧
    jsrFaultState.byteAt jsrFaultState.pc.toNat = tableOpcodes.jsr ∧ jsrFaultState.sp = 0xFFFF#16 := by decide

theorem witness_UnrecognizedStep : unknownState.fault = none ∧ 0 < unknownState.cyc ∧
    unknownState.byteAt unknownState.pc.toNat ≠ tableOpcodes.ldaImm ∧
    unknownState.byteAt unknownState.pc.toNat ≠ tableOpcodes.ldaZp ∧
    unknownState.byteAt unknownState.pc.toNat ≠ tableOpcodes.ldaZpx ∧
    unknownState.byteAt unknownState.pc.toNat ≠ tableOpcodes.jsr := by decide

/-- The clause of `LoadFlagsDescribeTheLastLoad` about steps that are no load, by each of its two conditions. -/
theorem witness_LoadFlags_other_steps :
    ((∃ t, stepWith tableOpcodes jsrState = .next t) ∧
      (decodeOpcode tableOpcodes (jsrState.byteAt jsrState.pc.toNat)).isLoad = false) ∧
    ((∃ t, stepWith tableOpcodes unknownState = .next t) ∧
      (decodeOpcode tableOpcodes (unknownState.byteAt unknownState.pc.toNat)).isLoad = false) ∧
    ((∃ t, stepWith tableOpcodes { ldaImmState with cyc := 0 } = .next t) ∧ (0 : Int) ≤ 0) :=
  ⟨⟨⟨_, rfl⟩, by decide⟩, ⟨⟨_, rfl⟩, by decide⟩, ⟨_, rfl⟩, by decide⟩

/-- The hypotheses of the statements about one running step, once for each operation and once for the fault; the
last clause of each is the clause of `CycleTotals` it meets. -/
theorem witness_running_steps :
    (ldaImmState.fault = none ∧ 0 < ldaImmState.cyc ∧ (∃ t, stepWith tableOpcodes ldaImmState = .next t ∧ t.fault = none) ∧
      decodeOpcode tableOpcodes (ldaImmState.byteAt ldaImmState.pc.toNat) = .ldaImm) ∧
    (ldaZpState.fault = none ∧ 0 < ldaZpState.cyc ∧ (∃ t, stepWith tableOpcodes ldaZpState = .next t ∧ t.fault = none) ∧
      decodeOpcode tableOpcodes (ldaZpState.byteAt ldaZpState.pc.toNat) = .ldaZp) ∧
    (ldaZpxState.fault = none ∧ 0 < ldaZpxState.cyc ∧
      (∃ t, stepWith tableOpcodes ldaZpxState = .next t ∧ t.fault = none) ∧
      decodeOpcode tableOpcodes (ldaZpxState.byteAt ldaZpxState.pc.toNat) = .ldaZpx) ∧
    (jsrState.fault = none ∧ 0 < jsrState.cyc ∧ (∃ t, stepWith tableOpcodes jsrState = .next t ∧ t.fault = none) ∧
      decodeOpcode tableOpcodes (jsrState.byteAt jsrState.pc.toNat) = .jsr) ∧
    (unknownState.fault = none ∧ 0 < unknownState.cyc ∧
      (∃ t, stepWith tableOpcodes unknownState = .next t ∧ t.fault = none) ∧
      decodeOpcode tableOpcodes (unknownState.byteAt unknownState.pc.toNat) = .unrecognized 0xFF#8) ∧
    (jsrFaultState.fault = none ∧ 0 < jsrFaultState.cyc ∧
      ∃ t, stepWith tableOpcodes jsrFaultState = .next t ∧ t.fault ≠ none) :=
  ⟨⟨rfl, by decide, ⟨_, rfl, rfl⟩, by decide⟩, ⟨rfl, by decide, ⟨_, rfl, rfl⟩, by decide⟩,
    ⟨rfl, by decide, ⟨_, rfl, rfl⟩, by decide⟩, ⟨rfl, by decide, ⟨_, rfl, rfl⟩, by decide⟩,
    ⟨rfl, by decide, ⟨_, rfl, rfl⟩, by decide⟩, ⟨rfl, by decide, ⟨_, rfl, nofun⟩⟩⟩

theorem witness_FrameOfJsr : ((∃ t, exec (.jsr 0x1234#16) jsrHighState = .next t) ∧ jsrHighState.sp ≠ 0xFFFF#16) ∧
    ((∃ t, exec (.jsr 0x1234#16) jsrFaultState = .next t) ∧ jsrFaultState.sp = 0xFFFF#16) :=
  ⟨⟨⟨_, rfl⟩, by decide⟩, ⟨⟨_, rfl⟩, rfl⟩⟩

theorem witness_IdleStepRetainsState : State.reset.fault = none ∧ State.reset.cyc ≤ 0 := by decide

theorem witness_ExecuteWithoutARun : (ldaImmState.fault = none ∧ (0 : Int) ≤ 0) ∧ faultedState.fault ≠ none := by
  decide

/-- For the statements about a run with a positive budget, the least one. -/
theorem witness_runs : jsrState.fault = none ∧ (0 : Int) < 1 := by decide

theorem witness_BudgetOnlyStarts : jsrState.fault = none ∧ 0 < jsrState.cyc ∧ (0 : Int) < 1 ∧
    ∃ t, stepWith tableOpcodes jsrState = .next t := ⟨rfl, by decide, by decide, _, rfl⟩

/-- A state with what no instruction reads replaced. -/
def unreadReplaced (s : State) : State :=
  { s with a := 0xFF#8, y := 0xFF#8, p := { c := true, z := true, i := true, d := true, b := true, v := true, n := true } }

/-- A load, a step that is no load, and an idle step. -/
theorem witness_IgnoresUnreadState :
    (ldaZpxState.AgreeOnRead (unreadReplaced ldaZpxState) ∧ (∃ t, stepWith tableOpcodes ldaZpxState = .next t) ∧
      0 < ldaZpxState.cyc ∧ (decodeOpcode tableOpcodes (ldaZpxState.byteAt ldaZpxState.pc.toNat)).isLoad = true) ∧
    (jsrState.AgreeOnRead (unreadReplaced jsrState) ∧ (∃ t, stepWith tableOpcodes jsrState = .next t) ∧
      (decodeOpcode tableOpcodes (jsrState.byteAt jsrState.pc.toNat)).isLoad = false) ∧
    (State.reset.AgreeOnRead (unreadReplaced State.reset) ∧ (∃ t, stepWith tableOpcodes State.reset = .next t) ∧
      State.reset.cyc ≤ 0) :=
  ⟨⟨⟨rfl, rfl, rfl, rfl, rfl, rfl⟩, ⟨_, rfl⟩, by decide, by decide⟩,
    ⟨⟨rfl, rfl, rfl, rfl, rfl, rfl⟩, ⟨_, rfl⟩, by decide⟩, ⟨rfl, rfl, rfl, rfl, rfl, rfl⟩, ⟨_, rfl⟩, by decide⟩

theorem witness_CounterFitsItsWidth : (4 ≤ 4) ∧ (-(2 : Int) ^ (4 - 1) ≤ 7 ∧ (7 : Int) < (2 : Int) ^ (4 - 1)) ∧
    (-(2 : Int) ^ (4 - 1) ≤ -8 ∧ (-8 : Int) < (2 : Int) ^ (4 - 1)) ∧
    (∃ t, instructions tableOpcodes 1 { jsrState with cyc := 7 } = some t) ∧
    (∃ t, instructions tableOpcodes 0 { jsrState with cyc := -8 } = some t) :=
  ⟨by decide, by decide, by decide, ⟨_, rfl⟩, ⟨_, rfl⟩⟩

theorem witness_StepKeepsInv : jsrFaultState.Inv ∧ ∃ t, step jsrFaultState = .next t :=
  ⟨⟨⟨by decide, .inl rfl⟩, by decide, fun _ => rfl⟩, _, rfl⟩

theorem witness_HostKeepsSound : (Platform.live faultedState).Sound := ⟨by decide, .inr rfl⟩

theorem witness_EqualMemoriesAreEqualData : Memory.wf [(0, 0x01#8), (65535, 0xFF#8)] = true := by decide

theorem witness_StorageLaw : (Memory.wf [(65535, 0x01#8)] = true ∧ 65535 < Config.capacity) ∧
    ∃ m', memWriteWord [] 65534 0xA1B2#16 = .ok m' := ⟨by decide, _, rfl⟩

theorem witness_WordWriteIsRejectedWhole : Config.capacity ≤ 65536 ∧ 65534 + 1 < Config.capacity ∧
    State.reset.fault = none := by decide

theorem witness_ResetLeaves : Platform.constructed ≠ .absent ∧ Platform.live faultedState ≠ .absent := by decide

theorem witness_PokeThenPeek : jsrState.mem.wf = true ∧ 65535 < 65536 := by decide

theorem witness_HostOutOfRangeChangesNothing : 65536 ≤ 65536 := by decide

theorem witness_PresetWritesOnlyWhatItNames : FlagName.z ≠ FlagName.c := by decide

theorem witness_NothingBeforeTheFirstReset : Transaction.execute 1 ≠ .reset := by decide

theorem witness_FaultIsSticky : faultedState.fault = some (.outOfRange 65536) ∧
    Transaction.preset (.sp 0x0100#16) ≠ .reset ∧ 65535 < 65536 := by decide

/-- `SP` = 0xFFFD is the highest from which two JSRs fit. -/
theorem witness_ConsecutivePushesOverlap : ∃ u1 u2 : State,
    jsrState.mem.wf = true ∧ ({ jsrState with sp := 0xFFFD#16 } : State).sp.toNat + 2 < 65536 ∧
    exec (.jsr 0x0300#16) { jsrState with sp := 0xFFFD#16 } = .next u1 ∧ exec (.jsr 0x0400#16) u1 = .next u2 :=
  ⟨_, _, by decide, by decide, rfl, rfl⟩

theorem witness_StoredBytesAreFetched : ∃ t : State, jsrHighState.mem.wf = true ∧ jsrHighState.sp ≠ 0xFFFF#16 ∧
    exec (.jsr 0x1234#16) jsrHighState = .next t ∧ ({ t with pc := jsrHighState.sp } : State).mem = t.mem :=
  ⟨_, by decide, by decide, rfl, rfl⟩

end Sys2Proof.Tests
end

section
/-! SUPPORT. The host's transactions on a live machine, one equation each, and what they keep. -/

namespace Sys2Proof.Machine

/-! ### Presets and inspections -/

/-- Reading any flag after writing one. -/
theorem Status.get_set (p : Status) (f g : FlagName) (v : Bool) :
    (p.set f v).get g = if g = f then v else p.get g := by
  cases f <;> cases g <;> rfl

@[simp] theorem applyPreset_mem (r : Preset) (s : State) : (applyPreset r s).mem = s.mem := by
  cases r <;> rfl

@[simp] theorem applyPreset_fault (r : Preset) (s : State) : (applyPreset r s).fault = s.fault := by
  cases r <;> rfl

theorem inspectReg_flag_preset_same (f : FlagName) (bit : Bool) (s : State) :
    inspectReg (.flag f) (applyPreset (.flag f bit) s) = .bit bit :=
  congrArg RegValue.bit ((Status.get_set s.p f f bit).trans (if_pos rfl))

theorem inspectReg_flag_preset_ne {f g : FlagName} (bit : Bool) (s : State) (hne : g ≠ f) :
    inspectReg (.flag g) (applyPreset (.flag f bit) s) = inspectReg (.flag g) s :=
  congrArg RegValue.bit ((Status.get_set s.p f g bit).trans (if_neg hne))

/-- Settles O54: each update is the preset's own equation; the flag laws come from `Status.get_set`. -/
theorem presetWritesOnlyWhatItNames : Obligations.PresetWritesOnlyWhatItNames := by
  intro s v w f bit
  exact ⟨rfl, rfl, rfl, rfl, rfl, rfl, inspectReg_flag_preset_same f bit s,
    fun _ hne => inspectReg_flag_preset_ne bit s hne,
    rfl, rfl, rfl, rfl, rfl, rfl, rfl, rfl, rfl, rfl, rfl, rfl, rfl, rfl, fun _ _ => rfl, fun _ _ => rfl⟩

/-! ### Poke and peek -/

theorem memWriteByte_of_lt {m : Memory} {addr : Nat} (v : Byte) (h : addr < Config.capacity) :
    memWriteByte m addr v = .ok (m.set addr v) := by
  simp [memWriteByte, h]

theorem memWriteByte_of_le {m : Memory} {addr : Nat} (v : Byte) (h : Config.capacity ≤ addr) :
    memWriteByte m addr v = .outOfRange addr := by
  simp [memWriteByte, h]

theorem memRead_of_le {m : Memory} {addr : Nat} (h : Config.capacity ≤ addr) : memRead m addr = .outOfRange addr := by
  simp [memRead, h]

theorem transactLive_poke_of_lt (p : Opcodes) (s : State) {addr : Nat} (v : Byte) (h : addr < Config.capacity) :
    transactLive p (.poke addr v) s = (.done, s.withMem (s.mem.set addr v)) := by
  simp only [transactLive, memWriteByte_of_lt v h]

theorem transactLive_poke_of_le (p : Opcodes) (s : State) {addr : Nat} (v : Byte) (h : Config.capacity ≤ addr) :
    transactLive p (.poke addr v) s = (.outOfRange addr, s) := by
  simp only [transactLive, memWriteByte_of_le v h]

theorem transactLive_peek_of_lt (p : Opcodes) (s : State) {addr : Nat} (h : addr < Config.capacity) :
    transactLive p (.peek addr) s = (.byte (s.byteAt addr), s) := by
  simp only [transactLive, memRead_of_lt h, State.byteAt_mem]

theorem transactLive_peek_of_le (p : Opcodes) (s : State) {addr : Nat} (h : Config.capacity ≤ addr) :
    transactLive p (.peek addr) s = (.outOfRange addr, s) := by
  simp only [transactLive, memRead_of_le h]

theorem transact_live (p : Opcodes) (t : Transaction) (s : State) :
    transact p t (.live s) = ((transactLive p t s).1, .live (transactLive p t s).2) := rfl

/-- Settles O52, by the two memory laws of a read after a write. -/
theorem pokeThenPeek : Obligations.PokeThenPeek := by
  intro p s addr v hwf haddr
  refine ⟨s.withMem (s.mem.set addr v), ?_, ?_, rfl, fun other hne => Memory.get_set_ne hne⟩
  · rw [transact_live, transactLive_poke_of_lt p s v haddr]
  · have hread : (s.withMem (s.mem.set addr v)).byteAt addr = v := Memory.get_set_same hwf
    rw [transact_live, transactLive_peek_of_lt p _ haddr, hread]

/-! ### Soundness -/

/-- Soundness speaks of memory and the latch only. -/
theorem State.Sound.congr {s t : State} (hs : s.Sound) (hmem : t.mem = s.mem) (hfault : t.fault = s.fault) :
    t.Sound := by
  unfold State.Sound
  rwa [hmem, hfault]

theorem State.sound_reset : State.reset.Sound := ⟨State.wf_reset, .inl rfl⟩

/-- A canonical memory stays canonical when two neighbouring bytes below the capacity are written. -/
theorem Memory.wf_set_set {m : Memory} {addr : Nat} {lo hi : Byte} (h : m.wf = true)
    (hcap : addr + 1 < Config.capacity) : ((m.set addr lo).set (addr + 1) hi).wf = true :=
  Memory.wf_set (Memory.wf_set h (Nat.lt_of_succ_lt hcap)) hcap

/-- Only the latch stops a step. -/
theorem exists_stepWith_next (p : Opcodes) {s : State} (hf : s.fault = none) : ∃ t, stepWith p s = .next t := by
  rcases stepWith_cases p s with ⟨f, hs, -⟩ | ⟨-, -, h⟩ | ⟨-, -, i, -, h⟩
  · simp [hf] at hs
  · exact ⟨_, h⟩
  · rw [h]
    rcases exec_cases i { s with pc := s.pc + BitVec.ofNat 16 i.length, cyc := s.cyc - i.length } with
      ⟨_, _, -, he, -⟩ | ⟨_, -, -, he⟩ | ⟨_, -, -, he⟩ | ⟨_, -, he⟩ <;> exact ⟨_, he⟩

/-- A step writes memory only in a JSR below the top of the address space, and latches only OutOfRange(65536). -/
theorem stepWith_sound {p : Opcodes} {s t : State} (hs : s.Sound) (h : stepWith p s = .next t) : t.Sound := by
  rcases stepWith_next_cases h with
    ⟨-, -, rfl⟩ | ⟨hf, -, ⟨_, _, -, -, -, rfl⟩ | ⟨hsp, -, _, rfl⟩ | ⟨-, -, rfl⟩ | ⟨-, rfl⟩⟩
  · exact hs
  · exact hs.congr (setLoadFlags_mem _) (setLoadFlags_fault _)
  · have hcap : s.sp.toNat + 1 < Config.capacity := toNat_succ hsp ▸ word_lt_capacity (s.sp + 1)
    exact ⟨Memory.wf_set_set hs.1 hcap, .inl hf⟩
  · exact ⟨hs.1, .inr rfl⟩
  · exact hs.congr rfl rfl

theorem engineLoop_sound {p : Opcodes} {fuel : Nat} {s : State} (hs : s.Sound) : (engineLoop p fuel s).Sound := by
  induction fuel generalizing s with
  | zero => exact hs
  | succ fuel ih =>
    cases hrun : running s with
    | false => rwa [engineLoop_stopped hrun]
    | true =>
      obtain ⟨t, ht⟩ := exists_stepWith_next p (running_iff.mp hrun).2
      rw [engineLoop_turn hrun ht]
      exact ih (stepWith_sound hs ht)

theorem execute_sound {p : Opcodes} {budget : Int} {s : State} (hs : s.Sound) : (execute p budget s).Sound := by
  unfold execute
  split
  · exact hs
  · exact engineLoop_sound (hs.congr rfl rfl)

theorem transactLive_sound {p : Opcodes} {t : Transaction} {s : State} (hs : s.Sound) :
    (transactLive p t s).2.Sound := by
  cases t with
  | construct => exact hs
  | reset => exact State.sound_reset
  | poke addr v =>
    rcases Nat.lt_or_ge addr Config.capacity with h | h
    · rw [transactLive_poke_of_lt p s v h]
      exact ⟨Memory.wf_set hs.1 h, hs.2⟩
    · rwa [transactLive_poke_of_le p s v h]
  | peek addr =>
    rcases Nat.lt_or_ge addr Config.capacity with h | h
    · rwa [transactLive_peek_of_lt p s h]
    · rwa [transactLive_peek_of_le p s h]
  | preset r => exact hs.congr (applyPreset_mem r s) (applyPreset_fault r s)
  | inspect r => exact hs
  | execute budget => exact execute_sound hs

/-- Settles O44: before the first reset there is no state but the one reset leaves; after it, transaction by
transaction, a run by induction on the turns of the loop. -/
theorem hostKeepsSound : Obligations.HostKeepsSound := by
  intro p t pl hpl
  cases pl with
  | absent => cases t <;> trivial
  | constructed =>
    cases t with
    | reset => exact State.sound_reset
    | _ => trivial
  | live s => exact transactLive_sound hpl

end Sys2Proof.Machine
end

section
/-! SUPPORT. What a step writes of the accumulator and the flags, and what the host sees of the state at reset
(10_state.md R11, R16, R17, R22, R24). -/

namespace Sys2Proof.Machine

/-! ### Loads write the accumulator, `Z` and `N`; nothing else writes a byte register or a flag -/

@[simp] theorem setLoadFlags_p_z_iff (s : State) : (setLoadFlags s).p.z = true ↔ s.a = 0#8 := decide_eq_true_iff

@[simp] theorem setLoadFlags_p_n (s : State) : (setLoadFlags s).p.n = s.a.getLsbD 7 := rfl

/-- Every load ends in `SetLoadFlags()` (41_load.md R76 to R78). -/
theorem exec_load {i : Instr} {s t : State} (hi : i.operation.isLoad = true) (h : exec i s = .next t) :
    ∃ u, t = setLoadFlags u := by
  rcases exec_cases i s with ⟨_, _, -, he, -⟩ | ⟨_, rfl, -, -⟩ | ⟨_, rfl, -, -⟩ | ⟨_, rfl, -⟩
  · rw [he] at h; cases h; exact ⟨_, rfl⟩
  all_goals cases hi

/-- The two states agree on what a load writes: the accumulator, `Z` and `N`. -/
def State.AgreeOnLoaded (s t : State) : Prop := t.a = s.a ∧ t.p.z = s.p.z ∧ t.p.n = s.p.n

/-- A step that is idle or runs no load leaves what a load writes. -/
theorem stepWith_keeps_loaded {p : Opcodes} {s t : State} (h : stepWith p s = .next t)
    (hno : s.cyc ≤ 0 ∨ (decodeOpcode p (s.byteAt s.pc.toNat)).isLoad = false) : s.AgreeOnLoaded t := by
  rcases stepWith_next_cases h with
    ⟨-, -, rfl⟩ | ⟨-, hc, ⟨_, _, -, -, hload, -⟩ | ⟨-, -, _, rfl⟩ | ⟨-, -, rfl⟩ | ⟨-, rfl⟩⟩
  case inr.inl =>
    rcases hno with hidle | hother
    · exact absurd hc (Int.not_lt.mpr hidle)
    · rw [hload] at hother; cases hother
  all_goals exact ⟨rfl, rfl, rfl⟩

/-- Settles O14: a load ends in `SetLoadFlags()`, every other step keeps the accumulator and the two flags, and neither
reset nor a preset of the accumulator goes through `SetLoadFlags()`. -/
theorem loadFlagsDescribeTheLastLoad : Obligations.LoadFlagsDescribeTheLastLoad := by
  refine ⟨fun i v s t hi h => ?_, fun p s t h hno => stepWith_keeps_loaded h hno, ⟨rfl, rfl⟩, fun _ _ => rfl⟩
  have hload : i.operation.isLoad = true := by rcases hi with rfl | rfl | rfl <;> rfl
  obtain ⟨u, rfl⟩ := exec_load hload h
  exact ⟨setLoadFlags_p_z_iff u, setLoadFlags_p_n u⟩

/-- Settles O26: of the five changes a step can make, only a load writes a flag, and that is `Z` and `N`
(`setLoadFlags_p`); none writes `x[X]` or `x[Y]`. -/
theorem stepKeepsIndexRegistersAndInertFlags : Obligations.StepKeepsIndexRegistersAndInertFlags := by
  intro p s t h
  rcases stepWith_next_cases h with
    ⟨-, -, rfl⟩ | ⟨-, -, ⟨_, _, -, -, -, rfl⟩ | ⟨-, -, _, rfl⟩ | ⟨-, -, rfl⟩ | ⟨-, rfl⟩⟩
  all_goals exact ⟨rfl, rfl, rfl, rfl, rfl, rfl, rfl⟩

/-! ### The state at reset and before it -/

/-- Settles O42. -/
theorem resetInv : Obligations.ResetInv := ⟨State.sound_reset, by decide, fun h => absurd rfl h⟩

theorem transact_reset (p : Opcodes) {pl : Platform} (h : pl ≠ .absent) :
    transact p .reset pl = (.done, .live State.reset) := by
  cases pl with
  | absent => exact absurd rfl h
  | constructed => rfl
  | live s => rfl

theorem State.byteAt_reset (addr : Nat) : State.reset.byteAt addr = 0#8 := Memory.get_nil addr

theorem Status.get_reset (f : FlagName) : State.reset.p.get f = false := by
  cases f <;> rfl

/-- Settles O50: reset leaves `State.reset`, whose memory lists no byte. -/
theorem resetLeaves : Obligations.ResetLeaves := fun p _ h =>
  ⟨State.reset, transact_reset p h, rfl, rfl, rfl, rfl, rfl, Status.get_reset, State.byteAt_reset, rfl, rfl⟩

/-- Settles O55, transaction by transaction. -/
theorem nothingBeforeTheFirstReset : Obligations.NothingBeforeTheFirstReset := by
  intro p t hne
  cases t with
  | reset => exact absurd rfl hne
  | poke addr v => exact ⟨rfl, .inl ⟨addr, v, rfl⟩⟩
  | construct => exact ⟨rfl, .inr ⟨.alreadyConstructed, rfl⟩⟩
  | peek _ | preset _ | inspect _ | execute _ => exact ⟨rfl, .inr ⟨.notReset, rfl⟩⟩

end Sys2Proof.Machine
end

section
/-! SUPPORT. The counter along a run (40_engine_loop.md R72, R73). -/

namespace Sys2Proof.Machine

/-- A running step charges one to six cycles, the faulting JSR included. -/
theorem stepWith_charge {p : Opcodes} {s t : State} (hrun : running s = true) (h : stepWith p s = .next t) :
    t.cyc ≤ s.cyc - 1 ∧ s.cyc - 6 ≤ t.cyc := by
  have hpos := (running_iff.mp hrun).1
  rcases stepWith_next_cases h with
    ⟨-, hidle, -⟩ | ⟨-, -, ⟨_, _, hlo, hhi, -, rfl⟩ | ⟨-, -, _, rfl⟩ | ⟨-, -, rfl⟩ | ⟨-, rfl⟩⟩
  · omega
  all_goals dsimp only [setLoadFlags_cyc]; omega

/-- A run of one more instruction is one running step and then the rest. -/
theorem instructions_succ {p : Opcodes} {k : Nat} {s t : State} (h : instructions p (k + 1) s = some t) :
    running s = true ∧ ∃ u, stepWith p s = .next u ∧ instructions p k u = some t := by
  unfold instructions at h
  split at h
  next hrun =>
    split at h
    next u hu => exact ⟨hrun, u, hu, h⟩
    all_goals cases h
  next => cases h

/-- A run only lowers the counter, and never below -5 unless it started there: an instruction starts with a budget of at least
one and charges at most six. -/
theorem instructions_cyc_bounds {p : Opcodes} {k : Nat} {s t : State} (h : instructions p k s = some t) :
    t.cyc ≤ s.cyc ∧ min s.cyc (-5) ≤ t.cyc := by
  induction k generalizing s with
  | zero => cases h; exact ⟨le_rfl, min_le_left _ _⟩
  | succ k ih =>
    obtain ⟨hrun, u, hu, hrest⟩ := instructions_succ h
    have hpos := (running_iff.mp hrun).1
    have hcharge := stepWith_charge hrun hu
    have hbounds := ih hrest
    omega

/-- Settles O41: the counter stays at most the budget and at least the smaller of the budget and -5, which four bits
hold. -/
theorem counterFitsItsWidth : Obligations.CounterFitsItsWidth := by
  intro p w budget s t k hw hlo hhi h
  have hbounds : t.cyc ≤ budget ∧ min budget (-5) ≤ t.cyc := instructions_cyc_bounds h
  have hpow : (2 : Int) ^ 3 ≤ 2 ^ (w - 1) := pow_le_pow_right₀ (by decide) (by omega)
  omega

end Sys2Proof.Machine
end

section
/-! SUPPORT. Noninterference: the accumulator, `x[Y]` and the flags reach nothing an instruction reads
(10_state.md R11, R16). -/

namespace Sys2Proof.Machine

/-- States that agree on all that is read differ in the accumulator, `x[Y]` and the flags at most. -/
theorem State.AgreeOnRead.eq_with {s s' : State} (h : s.AgreeOnRead s') :
    s' = { s with a := s'.a, y := s'.y, p := s'.p } := by
  obtain ⟨hx, hpc, hsp, hcyc, hfault, hmem⟩ := h
  rw [hx, hpc, hsp, hcyc, hfault, hmem]

/-- Replacing what no instruction reads. -/
theorem State.agreeOnRead_with (s : State) (a y : Byte) (q : Status) :
    s.AgreeOnRead { s with a := a, y := y, p := q } := ⟨rfl, rfl, rfl, rfl, rfl, rfl⟩

theorem State.AgreeOnRead.withCyc {s s' : State} (h : s.AgreeOnRead s') (c : Int) :
    (s.withCyc c).AgreeOnRead (s'.withCyc c) := by
  rw [h.eq_with]
  exact State.agreeOnRead_with _ _ _ _

theorem State.AgreeOnRead.running_eq {s s' : State} (h : s.AgreeOnRead s') : running s' = running s := by
  rw [h.eq_with]
  rfl

/-- The fetch reads the same instruction: it reads `PC` and memory, and writes `PC` and `CYC`. -/
theorem fetchInstr_agree {p : Opcodes} {s s' t : State} {i : Instr} (h : s.AgreeOnRead s')
    (hi : fetchInstr p s = .done i t) : ∃ t', fetchInstr p s' = .done i t' ∧ t.AgreeOnRead t' := by
  rw [h.eq_with]
  unfold fetchInstr at hi ⊢
  simp only [fetchByte_eq, fetchWord_eq, Attempt.andThen, State.byteAt_mem] at hi ⊢
  cases hop : decodeOpcode p (s.mem.get s.pc.toNat) <;>
    · simp only [hop] at hi ⊢
      cases hi
      exact ⟨_, rfl, State.agreeOnRead_with _ _ _ _⟩

/-- The end of every load, from states that agree on the byte loaded. -/
theorem State.agree_setLoadFlags_with (s : State) (y : Byte) (q : Status) :
    (setLoadFlags s).AgreeOnRead (setLoadFlags { s with y := y, p := q }) ∧
      (setLoadFlags s).AgreeOnLoaded (setLoadFlags { s with y := y, p := q }) :=
  ⟨⟨rfl, rfl, rfl, rfl, rfl, rfl⟩, rfl, rfl, rfl⟩

/-- The same instruction from states that agree leaves states that agree, after a load also on what it wrote. -/
theorem exec_agree {i : Instr} {s s' t : State} (h : s.AgreeOnRead s') (ht : exec i s = .next t) :
    ∃ t', exec i s' = .next t' ∧ t.AgreeOnRead t' ∧ (i.operation.isLoad = true → t.AgreeOnLoaded t') := by
  rw [h.eq_with]
  cases i with
  | ldaImm v =>
    cases (execLdaImm_eq v s).symm.trans ht
    obtain ⟨hread, hloaded⟩ := State.agree_setLoadFlags_with _ s'.y s'.p
    exact ⟨_, execLdaImm_eq v _, hread, fun _ => hloaded⟩
  | ldaZp zp8 =>
    cases (execLdaZp_eq zp8 s).symm.trans ht
    obtain ⟨hread, hloaded⟩ := State.agree_setLoadFlags_with _ s'.y s'.p
    exact ⟨_, execLdaZp_eq zp8 _, hread, fun _ => hloaded⟩
  | ldaZpx zp8 =>
    cases (execLdaZpx_eq zp8 s).symm.trans ht
    obtain ⟨hread, hloaded⟩ := State.agree_setLoadFlags_with _ s'.y s'.p
    exact ⟨_, execLdaZpx_eq zp8 _, hread, fun _ => hloaded⟩
  | jsr abs16 =>
    rcases word_top_or_below s.sp with hsp | hsp
    · cases (execJsr_top abs16 s hsp).symm.trans ht
      exact ⟨_, execJsr_top abs16 _ hsp, State.agreeOnRead_with _ _ _ _, nofun⟩
    · cases (execJsr_below abs16 s hsp).symm.trans ht
      exact ⟨_, execJsr_below abs16 _ hsp, State.agreeOnRead_with _ _ _ _, nofun⟩
  | unrecognized b =>
    cases ht
    exact ⟨_, rfl, State.agreeOnRead_with _ _ _ _, nofun⟩

/-- A step from states that agree: the same outcome on all that is read, after a running load also on what it wrote. -/
theorem stepWith_agree {p : Opcodes} {s s' t : State} (h : s.AgreeOnRead s')
    (ht : stepWith p s = .next t) :
    ∃ t', stepWith p s' = .next t' ∧ t.AgreeOnRead t' ∧
      (0 < s.cyc → (decodeOpcode p (s.byteAt s.pc.toNat)).isLoad = true → t.AgreeOnLoaded t') := by
  obtain ⟨-, -, -, hcyc, hfault, -⟩ := id h
  rcases stepWith_next_cases ht with ⟨hf, hidle, rfl⟩ | ⟨hf, hpos, -⟩
  · exact ⟨s', stepWith_idle (hfault ▸ hf) (hcyc ▸ hidle), h, fun hpos => absurd hpos (Int.not_lt.mpr hidle)⟩
  · obtain ⟨i, hi, hop⟩ := fetchInstr_done p s
    obtain ⟨u', hi', hu⟩ := fetchInstr_agree h hi
    rw [stepWith_running hf hpos hi] at ht
    obtain ⟨t', ht', hagree, hload⟩ := exec_agree hu ht
    exact ⟨t', (stepWith_running (hfault ▸ hf) (hcyc ▸ hpos) hi').trans ht', hagree, fun _ => hop ▸ hload⟩

/-- Settles O39: the agreement by `stepWith_agree`; that each state keeps its own, by what every step
leaves unwritten, for each of the two steps. -/
theorem stepIgnoresUnreadState : Obligations.StepIgnoresUnreadState := by
  intro p s s' t h ht
  obtain ⟨t', ht', hagree, hload⟩ := stepWith_agree h ht
  obtain ⟨-, hown⟩ := stepKeepsIndexRegistersAndInertFlags p s t ht
  obtain ⟨-, hown'⟩ := stepKeepsIndexRegistersAndInertFlags p s' t' ht'
  refine ⟨t', ht', hagree, hload, fun hno => ?_, hown, hown'⟩
  have hno' : s'.cyc ≤ 0 ∨ (decodeOpcode p (s'.byteAt s'.pc.toNat)).isLoad = false := by
    rw [h.eq_with]
    exact hno
  exact ⟨stepWith_keeps_loaded ht hno, stepWith_keeps_loaded ht' hno'⟩

theorem engineLoop_agree {p : Opcodes} {fuel : Nat} {s s' : State} (h : s.AgreeOnRead s') :
    (engineLoop p fuel s).AgreeOnRead (engineLoop p fuel s') := by
  induction fuel generalizing s s' with
  | zero => exact h
  | succ fuel ih =>
    cases hrun : running s with
    | false => rwa [engineLoop_stopped hrun, engineLoop_stopped (h.running_eq.trans hrun)]
    | true =>
      obtain ⟨t, ht⟩ := exists_stepWith_next p (running_iff.mp hrun).2
      obtain ⟨t', ht', hagree, -⟩ := stepWith_agree h ht
      rw [engineLoop_turn hrun ht, engineLoop_turn (h.running_eq.trans hrun) ht']
      exact ih hagree

/-- Settles O40: a latched state stays as it is, and otherwise the loop is one agreeing step after another. -/
theorem executeIgnoresUnreadState : Obligations.ExecuteIgnoresUnreadState := by
  intro p budget s s' h
  obtain ⟨-, -, -, -, hfault, -⟩ := id h
  unfold execute
  rw [← hfault]
  split
  · exact h
  · exact engineLoop_agree (h.withCyc budget)

end Sys2Proof.Machine
end

section
/-! SUPPORT. The raw accesses by address, the bytes of a stored word, and the canonical form as a representation
(20_memory.md R30 to R38). -/

namespace Sys2Proof.Machine

/-! ### Byte accesses and word writes, by address -/

theorem memRead_eq_outOfRange_iff {m : Memory} {addr bad : Nat} :
    memRead m addr = .outOfRange bad ↔ Config.capacity ≤ addr ∧ bad = addr := by
  rcases Nat.lt_or_ge addr Config.capacity with h | h
  · simp [memRead_of_lt h, h]
  · simp [memRead_of_le h, h, eq_comm]

theorem memWriteByte_eq_outOfRange_iff {m : Memory} {addr bad : Nat} {v : Byte} :
    memWriteByte m addr v = .outOfRange bad ↔ Config.capacity ≤ addr ∧ bad = addr := by
  rcases Nat.lt_or_ge addr Config.capacity with h | h
  · simp [memWriteByte_of_lt v h, h]
  · simp [memWriteByte_of_le v h, h, eq_comm]

/-- Settles O48. -/
theorem outOfRangeExactlyAboveCapacity : Obligations.OutOfRangeExactlyAboveCapacity :=
  fun _ _ _ _ => ⟨memRead_eq_outOfRange_iff, memWriteByte_eq_outOfRange_iff⟩

theorem memWriteWord_of_le {m : Memory} {addr : Nat} (v : Word) (h : Config.capacity ≤ addr) :
    memWriteWord m addr v = .outOfRange addr :=
  if_pos h

/-- At the last address the low byte fits and the high byte does not. -/
theorem memWriteWord_of_succ_eq {m : Memory} {addr : Nat} (v : Word) (h : addr + 1 = Config.capacity) :
    memWriteWord m addr v = .outOfRange Config.capacity := by
  have hlow : ¬ Config.capacity ≤ addr := by omega
  rw [memWriteWord, if_neg hlow, if_pos h.ge, h]

theorem memWriteWord_of_succ_lt {m : Memory} {addr : Nat} (v : Word) (h : addr + 1 < Config.capacity) :
    memWriteWord m addr v = .ok ((m.set addr (loByte v)).set (addr + 1) (hiByte v)) := by
  have hlow : ¬ Config.capacity ≤ addr := by omega
  rw [memWriteWord, if_neg hlow, if_neg (Nat.not_le.mpr h)]

/-- Settles O47, one equation of the word write for each of the three ranges. -/
theorem wordWriteIsRejectedWhole : Obligations.WordWriteIsRejectedWhole := fun _ _ v =>
  ⟨memWriteWord_of_succ_eq v rfl, memWriteWord_of_le v, fun h => ⟨_, memWriteWord_of_succ_lt v h⟩,
    fun s _ => writeWord_top v s⟩

/-! ### Reads after a word write -/

theorem Memory.get_set_set_fst {m : Memory} {addr : Nat} {lo hi : Byte} (h : m.wf = true) :
    ((m.set addr lo).set (addr + 1) hi).get addr = lo :=
  (Memory.get_set_ne (Nat.succ_ne_self addr).symm).trans (Memory.get_set_same h)

theorem Memory.get_set_set_snd {m : Memory} {addr : Nat} {lo hi : Byte} (h : m.wf = true)
    (hcap : addr < Config.capacity) : ((m.set addr lo).set (addr + 1) hi).get (addr + 1) = hi :=
  Memory.get_set_same (Memory.wf_set h hcap)

theorem Memory.get_set_set_ne {m : Memory} {addr other : Nat} {lo hi : Byte} (h : other ≠ addr)
    (h' : other ≠ addr + 1) : ((m.set addr lo).set (addr + 1) hi).get other = m.get other :=
  (Memory.get_set_ne h').trans (Memory.get_set_ne h)

/-- An access sees of the memory only the byte at its address. -/
theorem memRead_congr {m m' : Memory} {addr : Nat} (h : m'.get addr = m.get addr) :
    memRead m' addr = memRead m addr := by
  rw [memRead, memRead, h]

theorem memWriteWord_frame {m m' : Memory} {addr other : Nat} {v : Word} (h : memWriteWord m addr v = .ok m')
    (hlo : other ≠ addr) (hhi : other ≠ addr + 1) : m'.get other = m.get other := by
  rcases Nat.lt_trichotomy (addr + 1) Config.capacity with hcap | hcap | hcap
  · cases (memWriteWord_of_succ_lt v hcap).symm.trans h
    exact Memory.get_set_set_ne hlo hhi
  · cases (memWriteWord_of_succ_eq v hcap).symm.trans h
  · cases (memWriteWord_of_le v (Nat.le_of_lt_succ hcap)).symm.trans h

theorem readByte_keeps_mem (addr : Nat) (s : State) : (readByte addr s).state.mem = s.mem := by
  rcases Nat.lt_or_ge addr Config.capacity with h | h
  · rw [readByte, memRead_of_lt h]; rfl
  · rw [readByte, memRead_of_le h]; rfl

theorem fetchByte_keeps_mem (s : State) : (fetchByte s).state.mem = s.mem := by
  rw [fetchByte_eq]; rfl

/-- Settles O46: the laws of a read after a byte write and after a word write, and the two reads of the engine. -/
theorem storageLaw : Obligations.StorageLaw := by
  refine ⟨fun m addr v hwf hcap => ⟨_, memWriteByte_of_lt v hcap, ?_, fun other hne => ?_⟩,
    fun m m' addr v h other hlo hhi => memRead_congr (memWriteWord_frame h hlo hhi),
    fun s addr => ⟨readByte_keeps_mem addr s, fetchByte_keeps_mem s⟩⟩
  · rw [memRead_of_lt hcap, Memory.get_set_same hwf]
  · exact memRead_congr (Memory.get_set_ne hne)

/-! ### Byte order -/

/-- The constraint that the opcode bytes are distinct gives JSR's byte to JSR (00_scope.md R4). -/
theorem decodeOpcode_jsr {p : Opcodes} (h : p.Legal) : decodeOpcode p p.jsr = .jsr := by
  have hnodup := h.1
  simp only [List.nodup_cons, List.mem_cons, not_or] at hnodup
  obtain ⟨⟨-, -, himm, -⟩, ⟨-, hzp, -⟩, ⟨hzpx, -⟩, -⟩ := hnodup
  rw [decodeOpcode, if_neg (Ne.symm himm), if_neg (Ne.symm hzp), if_neg (Ne.symm hzpx), if_pos rfl]

theorem decodeBytes_jsr {p : Opcodes} (h : p.Legal) (lo hi : Byte) (rest : List Byte) :
    decodeBytes p (p.jsr :: lo :: hi :: rest) = .ok (.jsr (joinBytes hi lo), rest) := by
  simp only [decodeBytes, decodeOpcode_jsr h]

/-- Settles O8: the operand goes through `joinBytes` when decoded and fetched; a word goes through `loByte` and `hiByte`
when encoded and stored. -/
theorem littleEndianEverywhere : Obligations.LittleEndianEverywhere := by
  refine ⟨fun p hp lo hi rest => ⟨_, decodeBytes_jsr hp lo hi rest, joinBytes_toNat hi lo⟩,
    fun p t => ⟨_, _, rfl, loByte_toNat t, hiByte_toNat t⟩,
    fun s => ⟨_, _, fetchWord_eq s, joinBytes_toNat _ _⟩,
    fun m addr v hwf hcap =>
      ⟨_, _, _, memWriteWord_of_succ_lt v hcap, ?_, ?_, loByte_toNat v, hiByte_toNat v⟩⟩
  · rw [memRead_of_lt (Nat.lt_of_succ_lt hcap), Memory.get_set_set_fst hwf]
  · rw [memRead_of_lt hcap, Memory.get_set_set_snd hwf (Nat.lt_of_succ_lt hcap)]

/-- Settles O58: the two bytes of the return word lie at the old `SP`, low byte first, and the fetch joins them again. -/
theorem storedBytesAreFetched : Obligations.StoredBytesAreFetched := by
  intro abs16 s t u hwf hsp ht hmem hpc
  cases (execJsr_below abs16 s hsp).symm.trans ht
  refine ⟨_, _, fetchWord_eq u, ?_⟩
  simp only [State.byteAt_mem, hmem, hpc, toNat_succ hsp]
  rw [Memory.get_set_set_fst hwf, Memory.get_set_set_snd hwf (word_lt_capacity s.sp), joinBytes_hiByte_loByte]
  rfl

/-! ### Canonical memories that read the same -/

theorem Memory.wfFrom_cons {k lo : Nat} {v : Byte} {m : Memory} :
    Memory.wfFrom lo ((k, v) :: m) = true ↔
      lo ≤ k ∧ k < Config.capacity ∧ v ≠ Config.fillByte ∧ m.wfFrom (k + 1) = true := by
  simp only [Memory.wfFrom, Bool.and_eq_true, decide_eq_true_eq, and_assoc]

theorem Memory.get_cons_same (k : Nat) (v : Byte) (m : Memory) : Memory.get ((k, v) :: m) k = v := if_pos rfl

theorem Memory.get_cons_ne {k addr : Nat} (v : Byte) (m : Memory) (h : k ≠ addr) :
    Memory.get ((k, v) :: m) addr = m.get addr := if_neg h

/-- A canonical memory lists nothing below its bound, so an address with a byte of its own is not below it. -/
theorem Memory.le_of_get_ne_fill {m : Memory} {lo addr : Nat} (h : m.wfFrom lo = true)
    (hne : m.get addr ≠ Config.fillByte) : lo ≤ addr :=
  Nat.le_of_not_lt fun hlt => hne (Memory.get_below h hlt)

/-- Two memories give the same byte at every address of the AddressSpace. -/
def Memory.ReadsAs (m m' : Memory) : Prop := ∀ addr, addr < Config.capacity → m.get addr = m'.get addr

/-- A memory that lists a byte does not read as the empty one. -/
theorem Memory.not_readsAs_nil {k lo : Nat} {v : Byte} {m : Memory} (h : Memory.wfFrom lo ((k, v) :: m) = true) :
    ¬ Memory.ReadsAs ((k, v) :: m) [] := by
  obtain ⟨-, hk, hv, -⟩ := Memory.wfFrom_cons.mp h
  exact fun hread => hv ((Memory.get_cons_same k v m).symm.trans (hread k hk))

/-- The first listed address of a canonical memory is at or above that of every canonical memory it reads as. -/
theorem Memory.head_le_of_readsAs {k k' lo lo' : Nat} {v v' : Byte} {m m' : Memory}
    (h : Memory.wfFrom lo ((k, v) :: m) = true) (h' : Memory.wfFrom lo' ((k', v') :: m') = true)
    (hread : Memory.ReadsAs ((k, v) :: m) ((k', v') :: m')) : k' ≤ k := by
  obtain ⟨-, hk, hv, -⟩ := Memory.wfFrom_cons.mp h
  obtain ⟨-, hk', hv', hm'⟩ := Memory.wfFrom_cons.mp h'
  refine Memory.le_of_get_ne_fill (Memory.wfFrom_cons.mpr ⟨le_rfl, hk', hv', hm'⟩) ?_
  rw [← hread k hk, Memory.get_cons_same]
  exact hv

theorem Memory.ReadsAs.symm {m m' : Memory} (h : m.ReadsAs m') : m'.ReadsAs m := fun addr hcap => (h addr hcap).symm

/-- Behind the same first address the rest reads the same: up to that address both hold the fill byte. -/
theorem Memory.ReadsAs.tail {k : Nat} {v v' : Byte} {m m' : Memory}
    (hread : Memory.ReadsAs ((k, v) :: m) ((k, v') :: m')) (hm : m.wfFrom (k + 1) = true)
    (hm' : m'.wfFrom (k + 1) = true) : m.ReadsAs m' := by
  intro addr hcap
  rcases Nat.lt_or_ge k addr with hlt | hle
  · rw [← Memory.get_cons_ne v m hlt.ne, hread addr hcap, Memory.get_cons_ne v' m' hlt.ne]
  · rw [Memory.get_below hm (Nat.lt_succ_of_le hle), Memory.get_below hm' (Nat.lt_succ_of_le hle)]

theorem Memory.eq_of_readsAs {m m' : Memory} {lo lo' : Nat} (h : m.wfFrom lo = true) (h' : m'.wfFrom lo' = true)
    (hread : m.ReadsAs m') : m = m' := by
  induction m generalizing m' lo lo' with
  | nil =>
    cases m' with
    | nil => rfl
    | cons c' m' => exact absurd hread.symm (Memory.not_readsAs_nil h')
  | cons c m ih =>
    cases m' with
    | nil => exact absurd hread (Memory.not_readsAs_nil h)
    | cons c' m' =>
      obtain ⟨k, v⟩ := c
      obtain ⟨k', v'⟩ := c'
      obtain rfl : k = k' :=
        Nat.le_antisymm (Memory.head_le_of_readsAs h' h hread.symm) (Memory.head_le_of_readsAs h h' hread)
      obtain ⟨-, hk, -, hm⟩ := Memory.wfFrom_cons.mp h
      obtain ⟨-, -, -, hm'⟩ := Memory.wfFrom_cons.mp h'
      have hv : v = v' := by simpa only [Memory.get_cons_same] using hread k hk
      rw [hv, ih hm hm' (hread.tail hm hm')]

/-- Settles O45, by induction on the two lists at once: equal reads force the same first address, the same byte there, and
equal reads behind it. -/
theorem equalMemoriesAreEqualData : Obligations.EqualMemoriesAreEqualData :=
  fun _ _ h h' hread => Memory.eq_of_readsAs h h' hread

end Sys2Proof.Machine
end

section
/-! SUPPORT. What a step writes of memory and of the latch, and the invariant it keeps (20_memory.md R34, R41). -/

namespace Sys2Proof.Machine

/-- Settles O27: of the five changes a step can make, only the JSR that fits writes memory, two bytes at the old `SP`. -/
theorem stepStoresOnlyAtTheStack : Obligations.StepStoresOnlyAtTheStack := by
  intro p s t h
  rcases stepWith_next_cases h with
    ⟨-, -, rfl⟩ | ⟨-, -, ⟨_, _, -, -, -, rfl⟩ | ⟨-, hjsr, _, rfl⟩ | ⟨-, -, rfl⟩ | ⟨-, rfl⟩⟩
  case inr.inr.inl =>
    exact ⟨fun _ hlo hhi => Memory.get_set_set_ne hlo hhi, fun hno => absurd hjsr hno⟩
  all_goals exact ⟨fun _ _ _ => rfl, fun _ => rfl⟩

/-- A step that answers a next state latches nothing, or it ran the JSR at the top of the address space, which leaves
`SP` there. -/
theorem stepWith_latch_cases {p : Opcodes} {s t : State} (h : stepWith p s = .next t) :
    (t.fault = none ∧ (0 < s.cyc → ¬ (decodeOpcode p (s.byteAt s.pc.toNat) = .jsr ∧ s.sp = 0xFFFF#16))) ∨
    (t.fault = some (.outOfRange Config.capacity) ∧ decodeOpcode p (s.byteAt s.pc.toNat) = .jsr ∧
      s.sp = 0xFFFF#16 ∧ t.sp = s.sp) := by
  rcases stepWith_next_cases h with
    ⟨hf, hidle, rfl⟩ | ⟨hf, -, ⟨_, _, -, -, hload, rfl⟩ | ⟨hsp, -, _, rfl⟩ | ⟨hsp, hjsr, rfl⟩ | ⟨⟨_, hop⟩, rfl⟩⟩
  · exact .inl ⟨hf, fun hpos => absurd hpos (Int.not_lt.mpr hidle)⟩
  · exact .inl ⟨hf, fun _ ⟨hjsr, _⟩ => by rw [hjsr] at hload; cases hload⟩
  · exact .inl ⟨hf, fun _ ⟨_, htop⟩ => hsp htop⟩
  · exact .inr ⟨rfl, hjsr, hsp, rfl⟩
  · exact .inl ⟨hf, fun _ ⟨hjsr, _⟩ => by rw [hop] at hjsr; cases hjsr⟩

/-- Settles O30: the two cases of the latch exclude each other in a running step. -/
theorem onlyFaultIsTheStackTop : Obligations.OnlyFaultIsTheStackTop := by
  intro p s t _ hpos h
  rcases stepWith_latch_cases h with ⟨hnone, hno⟩ | ⟨hsome, hjsr, hsp, -⟩
  · exact ⟨⟨fun hne => absurd hnone hne, fun htop => absurd htop (hno hpos)⟩, .inl hnone⟩
  · exact ⟨⟨fun _ => ⟨hjsr, hsp⟩, fun _ => by rw [hsome]; nofun⟩, .inr hsome⟩

/-- An idle step keeps the counter; a running one starts at one or more and charges at most six. -/
theorem stepWith_overdraw {p : Opcodes} {s t : State} (hs : -5 ≤ s.cyc) (h : stepWith p s = .next t) : -5 ≤ t.cyc := by
  rcases stepWith_next_cases h with ⟨-, -, rfl⟩ | ⟨hf, hpos, -⟩
  · exact hs
  · have hcharge := stepWith_charge (running_iff.mpr ⟨hpos, hf⟩) h
    omega

theorem stepWith_latched_sp {p : Opcodes} {s t : State} (h : stepWith p s = .next t) (hf : t.fault ≠ none) :
    t.sp = 0xFFFF#16 := by
  rcases stepWith_latch_cases h with ⟨hnone, -⟩ | ⟨-, -, hsp, hkeep⟩
  · exact absurd hnone hf
  · exact hkeep.trans hsp

theorem stepWith_inv {p : Opcodes} {s t : State} (hs : s.Inv) (h : stepWith p s = .next t) : t.Inv := by
  obtain ⟨hsound, hcyc, -⟩ := hs
  exact ⟨stepWith_sound hsound h, stepWith_overdraw hcyc h, stepWith_latched_sp h⟩

/-- Settles O43, one lemma for each part of the invariant; `step` is `stepWith` at the table's opcode bytes. -/
theorem stepKeepsInv : Obligations.StepKeepsInv :=
  ⟨fun _ _ _ hs h => stepWith_inv hs h, fun _ _ hs h => stepWith_inv hs h⟩

end Sys2Proof.Machine
end

section
/-! SUPPORT. The decoder and the encoder are inverse to each other (30_encoding.md R50 to R54). An instruction's bytes
are its opcode byte, which alone decides the operation, and its operand bytes. -/

namespace Sys2Proof

/-! ### The opcode byte -/

/-- The constraint that the opcode bytes are distinct (00_scope.md R4), for the three loads. -/
theorem Opcodes.Legal.loads_ne {p : Opcodes} (h : p.Legal) :
    p.ldaZp ≠ p.ldaImm ∧ p.ldaZpx ≠ p.ldaImm ∧ p.ldaZpx ≠ p.ldaZp := by
  obtain ⟨hnodup, -⟩ := h
  simp only [List.nodup_cons, List.mem_cons, not_or] at hnodup
  obtain ⟨⟨himmZp, himmZpx, -⟩, ⟨hzpZpx, -⟩, -⟩ := hnodup
  exact ⟨Ne.symm himmZp, Ne.symm himmZpx, Ne.symm hzpZpx⟩

theorem Opcodes.Legal.not_defines_ff {p : Opcodes} (h : p.Legal) : ¬ p.Defines 0xFF#8 := by
  simpa [Opcodes.Defines] using h.2

theorem decodeOpcode_ldaImm (p : Opcodes) : decodeOpcode p p.ldaImm = .ldaImm := if_pos rfl

theorem decodeOpcode_ldaZp {p : Opcodes} (h : p.Legal) : decodeOpcode p p.ldaZp = .ldaZp := by
  obtain ⟨himm, -, -⟩ := h.loads_ne
  rw [decodeOpcode, if_neg himm, if_pos rfl]

theorem decodeOpcode_ldaZpx {p : Opcodes} (h : p.Legal) : decodeOpcode p p.ldaZpx = .ldaZpx := by
  obtain ⟨-, himm, hzp⟩ := h.loads_ne
  rw [decodeOpcode, if_neg himm, if_neg hzp, if_pos rfl]

theorem decodeOpcode_of_not_defines {p : Opcodes} {b : Byte} (h : ¬ p.Defines b) :
    decodeOpcode p b = .unrecognized b := by
  simp only [Opcodes.Defines, not_or] at h
  obtain ⟨himm, hzp, hzpx, hjsr⟩ := h
  rw [decodeOpcode, if_neg himm, if_neg hzp, if_neg hzpx, if_neg hjsr]

theorem Instr.wellFormed_unrecognized_iff {p : Opcodes} {b : Byte} :
    (Instr.unrecognized b).wellFormed p = true ↔ ¬ p.Defines b := by
  simp [Instr.wellFormed]

/-- The first byte of an instruction (30_encoding.md R50). -/
def Instr.opcodeByte (p : Opcodes) : Instr → Byte
  | .ldaImm _ => p.ldaImm
  | .ldaZp _ => p.ldaZp
  | .ldaZpx _ => p.ldaZpx
  | .jsr _ => p.jsr
  | .unrecognized b => b

/-- The bytes of an instruction after its first (30_encoding.md R51); they depend on no opcode byte. -/
def Instr.operandBytes : Instr → List Byte
  | .ldaImm imm8 => [imm8]
  | .ldaZp zp8 => [zp8]
  | .ldaZpx zp8 => [zp8]
  | .jsr abs16 => [loByte abs16, hiByte abs16]
  | .unrecognized _ => []

theorem encode_eq_cons (p : Opcodes) (i : Instr) : encode p i = i.opcodeByte p :: i.operandBytes := by
  cases i <;> rfl

theorem Instr.length_operandBytes (i : Instr) : i.operandBytes.length + 1 = i.operation.format.length := by
  cases i <;> rfl

theorem Instr.operandBytes_jsr_joinBytes (hi lo : Byte) : (Instr.jsr (joinBytes hi lo)).operandBytes = [lo, hi] := by
  rw [Instr.operandBytes, loByte_joinBytes, hiByte_joinBytes]

/-- The opcode byte of a well-formed instruction decides the instruction's own operation. -/
theorem decodeOpcode_opcodeByte {p : Opcodes} (hp : p.Legal) {i : Instr} (hi : i.wellFormed p = true) :
    decodeOpcode p (i.opcodeByte p) = i.operation := by
  cases i with
  | ldaImm _ => exact decodeOpcode_ldaImm p
  | ldaZp _ => exact decodeOpcode_ldaZp hp
  | ldaZpx _ => exact decodeOpcode_ldaZpx hp
  | jsr _ => exact Machine.decodeOpcode_jsr hp
  | unrecognized _ => exact decodeOpcode_of_not_defines (Instr.wellFormed_unrecognized_iff.mp hi)

/-- A byte that decides an instruction's operation is the instruction's opcode byte, under any assignment. -/
theorem opcodeByte_of_decodeOpcode {p : Opcodes} {b : Byte} {i : Instr} (h : decodeOpcode p b = i.operation) :
    b = i.opcodeByte p ∧ i.wellFormed p = true := by
  rcases decodeOpcode_cases p b with ⟨hb, hop⟩ | ⟨hb, hop⟩ | ⟨hb, hop⟩ | ⟨hb, hop⟩ | ⟨hb, hop⟩
  all_goals
    rw [hop] at h
    cases i <;> cases h
  case inr.inr.inr.inr => exact ⟨rfl, Instr.wellFormed_unrecognized_iff.mpr hb⟩
  all_goals exact ⟨hb, rfl⟩

/-! ### The operand bytes -/

/-- Behind an opcode byte that decides its operation, an instruction's operand bytes decode to it. -/
theorem decodeBytes_of_operation {p : Opcodes} {b : Byte} {i : Instr} (h : decodeOpcode p b = i.operation)
    (rest : List Byte) : decodeBytes p (b :: (i.operandBytes ++ rest)) = .ok (i, rest) := by
  cases i with
  | jsr abs16 => simp [decodeBytes, h, Instr.operation, Instr.operandBytes, joinBytes_hiByte_loByte]
  | _ => simp [decodeBytes, h, Instr.operation, Instr.operandBytes]

/-- What decodes has the operation its first byte decides, and its operand bytes stand behind that byte. -/
theorem operation_of_decodeBytes {p : Opcodes} {b : Byte} {bytes rest : List Byte} {i : Instr}
    (h : decodeBytes p (b :: bytes) = .ok (i, rest)) :
    decodeOpcode p b = i.operation ∧ bytes = i.operandBytes ++ rest := by
  simp only [decodeBytes] at h
  split at h
  next hop => cases h; exact ⟨hop, rfl⟩
  next hop => cases h; exact ⟨hop, rfl⟩
  next hop => cases h; exact ⟨hop, rfl⟩
  next hop => cases h; exact ⟨hop, by rw [Instr.operandBytes_jsr_joinBytes]; rfl⟩
  next hop => cases h; exact ⟨hop, rfl⟩
  next => cases h

/-- Enough bytes are the operand bytes of some instruction of a given operation, and a rest. -/
theorem Operation.exists_operandBytes : ∀ (op : Operation) (bytes : List Byte),
    op.format.length ≤ bytes.length + 1 →
    ∃ (i : Instr) (rest : List Byte), op = i.operation ∧ bytes = i.operandBytes ++ rest
  | .ldaImm, imm8 :: rest, _ => ⟨.ldaImm imm8, rest, rfl, rfl⟩
  | .ldaZp, zp8 :: rest, _ => ⟨.ldaZp zp8, rest, rfl, rfl⟩
  | .ldaZpx, zp8 :: rest, _ => ⟨.ldaZpx zp8, rest, rfl, rfl⟩
  | .jsr, lo :: hi :: rest, _ =>
    ⟨.jsr (joinBytes hi lo), rest, rfl, by rw [Instr.operandBytes_jsr_joinBytes]; rfl⟩
  | .unrecognized b, rest, _ => ⟨.unrecognized b, rest, rfl, rfl⟩

/-! ### The two directions, and what is rejected -/

theorem decodeBytes_encode {p : Opcodes} (hp : p.Legal) {i : Instr} (hi : i.wellFormed p = true)
    (rest : List Byte) : decodeBytes p (encode p i ++ rest) = .ok (i, rest) := by
  rw [encode_eq_cons]
  exact decodeBytes_of_operation (decodeOpcode_opcodeByte hp hi) rest

/-- Settles O3: the opcode byte decides the operation, and the operand bytes give back the operand. -/
theorem decodeEncode : Obligations.DecodeEncode := fun _ hp _ rest hi => decodeBytes_encode hp hi rest

/-- Settles O4: the decoder answers an instruction of the operation its first byte decides, and only that instruction's
own opcode byte decides it. -/
theorem encodeDecode : Obligations.EncodeDecode := by
  intro p bytes i rest h
  cases bytes with
  | nil => cases h
  | cons b bytes =>
    obtain ⟨hop, rfl⟩ := operation_of_decodeBytes h
    obtain ⟨rfl, hi⟩ := opcodeByte_of_decodeOpcode hop
    exact ⟨by rw [encode_eq_cons]; rfl, hi⟩

/-- Settles O5: what decodes has its operand bytes in the list, and a list long enough for them is that of an
instruction. -/
theorem decodeRejectsOnlyTruncation : Obligations.DecodeRejectsOnlyTruncation := by
  intro p b bytes
  constructor
  · rintro ⟨i, rest, h⟩
    obtain ⟨hop, rfl⟩ := operation_of_decodeBytes h
    rw [hop, ← i.length_operandBytes, List.length_append]
    omega
  · intro h
    obtain ⟨i, rest, hop, rfl⟩ := (decodeOpcode p b).exists_operandBytes bytes h
    exact ⟨i, rest, decodeBytes_of_operation hop rest⟩

/-- Settles O1: one equation of `decodeOpcode` for each opcode byte, and one for all others. -/
theorem decodeOpcodeIsTheMap : Obligations.DecodeOpcodeIsTheMap := by
  refine fun p hp => ⟨decodeOpcode_ldaImm p, decodeOpcode_ldaZp hp, decodeOpcode_ldaZpx hp,
    Machine.decodeOpcode_jsr hp, decodeOpcode_of_not_defines hp.not_defines_ff, fun b himm hzp hzpx hjsr => ?_⟩
  have hop : decodeOpcode p b = .unrecognized b :=
    decodeOpcode_of_not_defines (not_or.mpr ⟨himm, not_or.mpr ⟨hzp, not_or.mpr ⟨hzpx, hjsr⟩⟩⟩)
  exact ⟨hop, decodeBytes_of_operation (i := .unrecognized b) hop⟩

/-- Settles O2, by running the decoder on the six words. -/
theorem decodeWordsFromTheSpec : Obligations.DecodeWordsFromTheSpec := by
  unfold Obligations.DecodeWordsFromTheSpec
  decide

end Sys2Proof
end

section
/-! SUPPORT. The operand of each instruction and its effect after the fetch (30_encoding.md R52, R55 to R57), and the
totality of the step (30_encoding.md R53, R58). -/

namespace Sys2Proof.Machine

/-- Settles O31: the latch is the one thing that keeps a step from a next state. -/
theorem stepAlwaysAnswers : Obligations.StepAlwaysAnswers := by
  intro p s
  rcases Option.eq_none_or_eq_some s.fault with hf | ⟨f, hf⟩
  · exact .inl ⟨hf, exists_stepWith_next p hf⟩
  · exact .inr ⟨f, hf, stepWith_faulted hf⟩

/-- `SetLoadFlags()` as one update of the state (41_load.md R75). -/
theorem setLoadFlags_eq (s : State) :
    setLoadFlags s = { s with p := { s.p with z := decide (s.a = 0#8), n := s.a.getLsbD 7 } } := rfl

theorem zeroPageAddress_toNat_lt (zp8 : Byte) : (zeroPageAddress zp8).toNat < 256 :=
  (zeroPageAddress_toNat zp8).trans_lt zp8.isLt

/-- The index addition wraps within a byte (30_encoding.md R56). -/
theorem zeroPageXAddress_toNat_mod (zp8 x : Byte) :
    (zeroPageXAddress zp8 x).toNat = (zp8.toNat + x.toNat) % 256 :=
  (zeroPageXAddress_toNat zp8 x).trans (BitVec.toNat_add zp8 x)

/-- Settles O9. -/
theorem immediateOperand : Obligations.ImmediateOperand :=
  ⟨fun _ hp imm8 rest => decodeBytes_encode hp (i := .ldaImm imm8) rfl rest, execLdaImm_eq⟩

/-- Settles O10: the operand byte is the effective address, as a number. -/
theorem zeroPageOperand : Obligations.ZeroPageOperand := by
  refine ⟨fun _ hp zp8 rest => decodeBytes_encode hp (i := .ldaZp zp8) rfl rest,
    fun zp8 => ⟨zeroPageAddress_toNat zp8, zeroPageAddress_toNat_lt zp8⟩, fun zp8 s => ?_⟩
  rw [exec, execLdaZp_eq, zeroPageAddress_toNat, setLoadFlags_eq]

/-- Settles O11: the effective address is the wrapped sum, and the two cycles are charged one after the other. -/
theorem zeroPageXOperand : Obligations.ZeroPageXOperand := by
  refine ⟨fun _ hp zp8 rest => decodeBytes_encode hp (i := .ldaZpx zp8) rfl rest, zeroPageXAddress_toNat_mod,
    fun zp8 s => ?_⟩
  rw [exec, execLdaZpx_eq, zeroPageXAddress_toNat_mod, setLoadFlags_eq, Int.sub_sub]
  rfl

/-- Settles O12. -/
theorem absoluteOperand : Obligations.AbsoluteOperand :=
  ⟨fun _ hp lo hi rest => ⟨_, decodeBytes_jsr hp lo hi rest, joinBytes_toNat hi lo⟩, fun _ _ => rfl,
    fun t s hsp => ⟨_, execJsr_below t s hsp, rfl⟩⟩

end Sys2Proof.Machine
end

section
/-! SUPPORT. The engine's step (40_engine_loop.md R65 to R71, R74): its fetch is the decoder at `PC`, what each
operation charges, and that the budget decides only whether it starts. -/

namespace Sys2Proof

/-- What an operation that completes charges after its bytes are fetched: index addition, data access, internal cycle
(40_engine_loop.md R74). -/
def Operation.execCycles : Operation → Nat
  | .ldaImm => 0
  | .ldaZp => 1
  | .ldaZpx => 1 + 1
  | .jsr => 2 + 1
  | .unrecognized _ => 0

end Sys2Proof

namespace Sys2Proof.Machine

/-! ### The fetch -/

/-- Settles O49: both sides read the bytes at `PC` and `PC + 1`, raise `PC` by two and charge two cycles. -/
theorem fetchWordIsTwoFetches : Obligations.FetchWordIsTwoFetches := by
  intro s
  simp only [fetchWord_eq, fetchByte_eq, Attempt.andThen, BitVec.add_assoc, Int.sub_sub]
  rfl

/-- The bytes behind `PC` start with the operand bytes of the fetched instruction. -/
theorem operandBytes_of_fetchInstr {p : Opcodes} {s t : State} {i : Instr} (h : fetchInstr p s = .done i t) :
    ∃ rest, [s.byteAt (s.pc + 1).toNat, s.byteAt (s.pc + 2).toNat] = i.operandBytes ++ rest := by
  have hpc : s.pc + 1 + 1 = s.pc + 2 := BitVec.add_assoc s.pc 1 1
  simp only [fetchInstr, fetchByte_eq, fetchWord_eq, Attempt.andThen, State.byteAt_mem, hpc] at h ⊢
  cases hop : decodeOpcode p (s.mem.get s.pc.toNat) <;> rw [hop] at h <;> cases h
  case jsr => exact ⟨[], by rw [Instr.operandBytes_jsr_joinBytes]; rfl⟩
  all_goals exact ⟨_, rfl⟩

/-- Settles O6: the opcode byte decides the operation of the fetched instruction, and its operand bytes stand behind. -/
theorem fetchAgreesWithDecode : Obligations.FetchAgreesWithDecode := by
  intro p s
  obtain ⟨i, hi, hop⟩ := fetchInstr_done p s
  obtain ⟨rest, hrest⟩ := operandBytes_of_fetchInstr hi
  refine ⟨i, rest, ?_, hi⟩
  rw [State.bytesAtPc, hrest]
  exact decodeBytes_of_operation hop.symm rest

/-- A running step is the meaning of the instruction the decoder reads at `PC`. -/
theorem stepWith_decoded {p : Opcodes} {s : State} {i : Instr} {rest : List Byte} (hf : s.fault = none)
    (hc : 0 < s.cyc) (h : decodeBytes p s.bytesAtPc = .ok (i, rest)) :
    stepWith p s = exec i { s with pc := s.pc + BitVec.ofNat 16 i.length, cyc := s.cyc - i.length } := by
  obtain ⟨i', rest', hdecode, hfetch⟩ := fetchAgreesWithDecode p s
  cases h.symm.trans hdecode
  exact stepWith_running hf hc hfetch

/-- Settles O7; `step` is `stepWith` at the table's opcode bytes. -/
theorem stepRunsTheDecodedInstruction : Obligations.StepRunsTheDecodedInstruction :=
  ⟨fun _ _ _ _ hf hc h => stepWith_decoded hf hc h, fun _ _ _ hf hc h => stepWith_decoded hf hc h⟩

/-! ### The charge -/

/-- Settles O29. -/
theorem stepChargesOneToSix : Obligations.StepChargesOneToSix :=
  fun _ _ _ hf hc h => stepWith_charge (running_iff.mpr ⟨hc, hf⟩) h

theorem exec_cyc {i : Instr} {s t : State} (h : exec i s = .next t) (hf : t.fault = none) :
    t.cyc = s.cyc - i.operation.execCycles := by
  rcases exec_cases i s with ⟨v, k, -, he, hi⟩ | ⟨_, rfl, -, he⟩ | ⟨_, -, -, he⟩ | ⟨_, rfl, he⟩
  all_goals cases he.symm.trans h
  · have hk : i.operation.execCycles = k := by
      rcases hi with ⟨rfl, rfl⟩ | ⟨_, rfl, rfl, -⟩ | ⟨_, rfl, rfl, -⟩ <;> rfl
    rw [hk, setLoadFlags_cyc]
  · exact Int.sub_sub s.cyc 2 1
  · cases hf
  · exact (Int.sub_zero s.cyc).symm

/-- The two parts of the charge of a step that completes: the fetch, by the format, and the meaning. -/
theorem stepWith_cyc {p : Opcodes} {s t : State} {op : Operation} (hf : s.fault = none) (hc : 0 < s.cyc)
    (hop : op = decodeOpcode p (s.byteAt s.pc.toNat)) (h : stepWith p s = .next t) (ht : t.fault = none) :
    ∃ i u, fetchInstr p s = .done i u ∧ u.cyc = s.cyc - op.format.length ∧ t.cyc = u.cyc - op.execCycles := by
  obtain ⟨i, hi, hiop⟩ := fetchInstr_done p s
  obtain rfl : i.operation = op := hiop.trans hop.symm
  exact ⟨i, _, hi, rfl, exec_cyc ((stepWith_running hf hc hi).symm.trans h) ht⟩

/-- Settles O23: the two parts, read off for each operation. -/
theorem cycleTotals : Obligations.CycleTotals := by
  intro p s t op hf hc hop h ht
  obtain ⟨i, u, hi, hfetch, hexec⟩ := stepWith_cyc hf hc hop h ht
  clear hop
  refine ⟨?_, ?_, ?_, ?_, ?_, i, u, hi, hfetch, ?_, ?_, ?_, ?_, ?_⟩
  all_goals
    intros
    subst op
    simp only [Operation.format, Format.length, Operation.execCycles] at hfetch hexec
    omega

/-! ### The budget -/

/-- The same instruction with the counter shifted makes the same change, the counter shifted. -/
theorem exec_add_cyc {i : Instr} {s t : State} (d : Int) (h : exec i s = .next t) :
    exec i { s with cyc := s.cyc + d } = .next { t with cyc := t.cyc + d } := by
  have hshift (n : Int) : s.cyc + d - n = s.cyc - n + d := add_sub_right_comm ..
  cases i with
  | ldaImm v =>
    cases (execLdaImm_eq v s).symm.trans h
    exact execLdaImm_eq v _
  | ldaZp zp8 =>
    cases (execLdaZp_eq zp8 s).symm.trans h
    refine (execLdaZp_eq zp8 _).trans ?_
    rw [hshift]; rfl
  | ldaZpx zp8 =>
    cases (execLdaZpx_eq zp8 s).symm.trans h
    refine (execLdaZpx_eq zp8 _).trans ?_
    rw [Int.sub_sub, hshift, ← Int.sub_sub]; rfl
  | jsr abs16 =>
    rcases word_top_or_below s.sp with hsp | hsp
    · cases (execJsr_top abs16 s hsp).symm.trans h
      exact execJsr_top abs16 _ hsp
    · cases (execJsr_below abs16 s hsp).symm.trans h
      refine (execJsr_below abs16 { s with cyc := s.cyc + d } hsp).trans ?_
      rw [Int.sub_sub, hshift, ← Int.sub_sub]; rfl
  | unrecognized b =>
    cases h
    rfl

/-- Settles O38: the fetch does not read the counter, and both fetch and meaning subtract from it. -/
theorem budgetOnlyStarts : Obligations.BudgetOnlyStarts := by
  intro p s t c hf hc hc' h
  obtain ⟨d, rfl⟩ : ∃ d, c = s.cyc + d := ⟨c - s.cyc, (add_sub_cancel s.cyc c).symm⟩
  obtain ⟨i, rest, hdecode, -⟩ := fetchAgreesWithDecode p s
  have hexec := exec_add_cyc d ((stepWith_decoded hf hc hdecode).symm.trans h)
  have hstep := stepWith_decoded (s := { s with cyc := s.cyc + d }) hf hc' hdecode
  have htaken : s.cyc + d - (s.cyc - t.cyc) = t.cyc + d := by omega
  rw [htaken, hstep, ← hexec, add_sub_right_comm]

end Sys2Proof.Machine
end

section
/-! SUPPORT. The loop of `execute` (40_engine_loop.md R70 to R73). -/

namespace Sys2Proof.Machine

/-! ### `execute` and the loop -/

theorem execute_of_no_fault (p : Opcodes) (budget : Int) {s : State} (hf : s.fault = none) :
    execute p budget s = engineLoop p budget.toNat (s.withCyc budget) := by
  simp [execute, hf]

theorem execute_of_fault (p : Opcodes) (budget : Int) {s : State} (hf : s.fault ≠ none) :
    execute p budget s = s :=
  if_pos (Option.isSome_iff_ne_none.mpr hf)

theorem running_eq_false_of_cyc_le {s : State} (h : s.cyc ≤ 0) : running s = false :=
  Bool.eq_false_iff.mpr fun hrun => Int.not_lt.mpr h (running_iff.mp hrun).1

theorem cyc_le_of_running_eq_false {s : State} (h : running s = false) (hf : s.fault = none) : s.cyc ≤ 0 :=
  Int.not_lt.mp fun hpos => Bool.eq_false_iff.mp h (running_iff.mpr ⟨hpos, hf⟩)

/-- Settles O33. -/
theorem executeWithoutARun : Obligations.ExecuteWithoutARun := by
  refine fun p budget s => ⟨fun hf hle => ?_, execute_of_fault p budget⟩
  rw [execute_of_no_fault p budget hf]
  exact engineLoop_stopped (running_eq_false_of_cyc_le hle)

/-! ### The bound on the turns -/

/-- A bound of at least the cycles left is not felt by a running state: it allows one turn, and covers the cycles
that turn leaves, since every turn charges at least one. -/
theorem exists_turn {p : Opcodes} {fuel : Nat} {s : State} (hrun : running s = true) (hfuel : s.cyc ≤ fuel) :
    ∃ (n : Nat) (t : State), fuel = n + 1 ∧ stepWith p s = .next t ∧ t.cyc ≤ n := by
  obtain ⟨hpos, hf⟩ := running_iff.mp hrun
  obtain ⟨t, ht⟩ := exists_stepWith_next p hf
  have hcharge := stepWith_charge hrun ht
  exact ⟨fuel - 1, t, by omega, ht, by omega⟩

theorem engineLoop_eq_of_cyc_le {p : Opcodes} {m n : Nat} {s : State} (hm : s.cyc ≤ m) (hn : s.cyc ≤ n) :
    engineLoop p m s = engineLoop p n s := by
  induction m generalizing n s with
  | zero =>
    have hstop := running_eq_false_of_cyc_le hm
    rw [engineLoop_stopped hstop, engineLoop_stopped hstop]
  | succ m ih =>
    cases hrun : running s with
    | false => rw [engineLoop_stopped hrun, engineLoop_stopped hrun]
    | true =>
      obtain ⟨_, t, ⟨⟩, ht, hm'⟩ := exists_turn (p := p) hrun hm
      obtain ⟨n', t', rfl, ht', hn'⟩ := exists_turn (p := p) hrun hn
      cases ht.symm.trans ht'
      rw [engineLoop_turn hrun ht, engineLoop_turn hrun ht, ih hm' hn']

/-- Settles O34: the first turn is one step, and for the turns after it the bound is not felt. -/
theorem executeIsTheWhileLoop : Obligations.ExecuteIsTheWhileLoop := by
  intro p budget s hf hpos
  have hrun : running (s.withCyc budget) = true := running_iff.mpr ⟨hpos, hf⟩
  obtain ⟨n, t, hn, ht, hcyc⟩ := exists_turn (p := p) hrun (Int.self_le_toNat budget)
  refine ⟨t, ht, fun k => ?_⟩
  rw [execute_of_no_fault p budget hf, hn, engineLoop_turn hrun ht]
  exact engineLoop_eq_of_cyc_le hcyc (by omega)

/-! ### The length of a run -/

/-- One running step before a run of `k` instructions is a run of one more. -/
theorem instructions_turn {p : Opcodes} {k : Nat} {s t : State} (h : running s = true) (hs : stepWith p s = .next t) :
    instructions p (k + 1) s = instructions p k t := by
  simp [instructions, h, hs]

theorem instructions_charge_le {p : Opcodes} {k : Nat} {s t : State} (h : instructions p k s = some t) :
    s.cyc ≤ t.cyc + 6 * k := by
  induction k generalizing s with
  | zero => cases h; omega
  | succ k ih =>
    obtain ⟨hrun, u, hu, hrest⟩ := instructions_succ h
    have hcharge := stepWith_charge hrun hu
    have hle := ih hrest
    omega

/-- With a bound of at least the cycles left the loop ends because its condition fails, and what it did is a run of at
most as many instructions as the bound. -/
theorem exists_instructions_engineLoop {p : Opcodes} {fuel : Nat} {s : State} (h : s.cyc ≤ fuel) :
    ∃ k ≤ fuel, instructions p k s = some (engineLoop p fuel s) ∧ running (engineLoop p fuel s) = false := by
  induction fuel generalizing s with
  | zero => exact ⟨0, le_rfl, rfl, running_eq_false_of_cyc_le h⟩
  | succ fuel ih =>
    cases hrun : running s with
    | false =>
      rw [engineLoop_stopped hrun]
      exact ⟨0, Nat.zero_le _, rfl, hrun⟩
    | true =>
      obtain ⟨_, t, ⟨⟩, ht, hcyc⟩ := exists_turn (p := p) hrun h
      obtain ⟨k, hk, hinstr, hstop⟩ := ih hcyc
      rw [engineLoop_turn hrun ht]
      exact ⟨k + 1, Nat.succ_le_succ hk, (instructions_turn hrun ht).trans hinstr, hstop⟩

/-- Settles O35: the loop's run ends within the bound, which is the budget; without a fault it ends with no cycle left,
and each instruction charged at most six. -/
theorem executeTerminates : Obligations.ExecuteTerminates := by
  intro p budget s hf hpos
  obtain ⟨k, hk, hinstr, hstop⟩ :=
    exists_instructions_engineLoop (p := p) (s := s.withCyc budget) (Int.self_le_toNat budget)
  rw [← execute_of_no_fault p budget hf] at hinstr hstop
  refine ⟨k, _, hinstr, rfl, hstop, by omega, fun hnone => ?_⟩
  have hcharge : budget ≤ (execute p budget s).cyc + 6 * k := instructions_charge_le hinstr
  have hleft := cyc_le_of_running_eq_false hstop hnone
  omega

/-- Settles O36: the state `execute` answers ends a run that started at or above -5, and does not run on. -/
theorem overdrawIsAtMostFive : Obligations.OverdrawIsAtMostFive := by
  intro p budget s hf hpos
  obtain ⟨k, t, hinstr, rfl, hstop, -⟩ := executeTerminates p budget s hf hpos
  obtain ⟨-, hlow : min budget (-5) ≤ _⟩ := instructions_cyc_bounds hinstr
  exact ⟨by omega, cyc_le_of_running_eq_false hstop⟩

end Sys2Proof.Machine
end

section
/-! SUPPORT. The three loads (41_load.md R75 to R78): the flag update, the frame, and the whole of each step. -/

namespace Sys2Proof.Machine

/-! ### After the fetch -/

theorem setLoadFlags_p_z_toNat (s : State) : (setLoadFlags s).p.z = decide (s.a.toNat = 0) :=
  decide_eq_decide.mpr BitVec.toNat_inj.symm

/-- Bit 7 is the upper half of the byte's range (41_load.md R75). -/
theorem setLoadFlags_p_n_toNat (s : State) : (setLoadFlags s).p.n = decide (0x80 ≤ s.a.toNat) :=
  BitVec.msb_eq_decide s.a

/-- Settles O13: both flags are comparisons of the accumulator as a number, whose three ranges exclude each other. -/
theorem setLoadFlags_writes_z_n : Obligations.SetLoadFlags := by
  intro s
  refine ⟨rfl, ?_⟩
  simp only [setLoadFlags_p_z_toNat, setLoadFlags_p_n_toNat, decide_eq_true_eq, decide_eq_false_iff_not]
  omega

/-- What a load does after the fetch: it writes the accumulator and `CYC`, then the two flags. -/
theorem exec_load_eq {i : Instr} {s t : State} (hi : i.operation.isLoad = true) (h : exec i s = .next t) :
    t = setLoadFlags { s with a := t.a, cyc := t.cyc } := by
  rcases exec_cases i s with ⟨_, _, -, he, -⟩ | ⟨_, rfl, -, -⟩ | ⟨_, rfl, -, -⟩ | ⟨_, rfl, -⟩
  · cases he.symm.trans h; rfl
  all_goals cases hi

/-- Settles O24: a load writes the accumulator, `CYC`, `Z` and `N` (`exec_load_eq`); the claim names everything else. -/
theorem frameOfLoads : Obligations.FrameOfLoads := by
  intro i v s t hi h
  have hload : i.operation.isLoad = true := by rcases hi with rfl | rfl | rfl <;> rfl
  rw [exec_load_eq hload h]
  exact ⟨rfl, rfl, rfl, rfl, rfl, rfl, rfl, rfl, rfl, rfl, fun _ => rfl⟩

/-! ### The whole step -/

/-- A running step at the bytes of an instruction is its meaning from the state its fetch leaves. -/
theorem stepWith_encode {p : Opcodes} {s : State} {i : Instr} {rest : List Byte} (hp : p.Legal) (hf : s.fault = none)
    (hc : 0 < s.cyc) (hi : i.wellFormed p = true) (hbytes : s.bytesAtPc = encode p i ++ rest) :
    stepWith p s = exec i { s with pc := s.pc + BitVec.ofNat 16 i.length, cyc := s.cyc - i.length } :=
  stepWith_decoded hf hc (hbytes ▸ decodeBytes_encode hp hi rest)

/-- Settles O17: two cycles of fetch, and the operand is the byte loaded. -/
theorem ldaImmStep : Obligations.LdaImmStep := by
  intro p s hp hf hc hop
  rw [stepWith_encode (i := .ldaImm (s.byteAt (s.pc + 1).toNat)) hp hf hc rfl (congrArg (· :: _) hop)]
  exact execLdaImm_eq _ _

/-- Settles O18: two cycles of fetch and one for the data read, at the operand byte's own address. -/
theorem ldaZpStep : Obligations.LdaZpStep := by
  rintro p s _ hp hf hc hop rfl
  rw [stepWith_encode (i := .ldaZp (s.byteAt (s.pc + 1).toNat)) hp hf hc rfl (congrArg (· :: _) hop), exec,
    execLdaZp_eq, zeroPageAddress_toNat, Int.sub_sub]
  rfl

/-- Settles O19: two cycles of fetch, one for the index addition and one for the data read, at the wrapped sum. -/
theorem ldaZpxStep : Obligations.LdaZpxStep := by
  rintro p s _ hp hf hc hop rfl
  rw [stepWith_encode (i := .ldaZpx (s.byteAt (s.pc + 1).toNat)) hp hf hc rfl (congrArg (· :: _) hop), exec,
    execLdaZpx_eq, zeroPageXAddress_toNat_mod, Int.sub_sub, Int.sub_sub]
  rfl

end Sys2Proof.Machine
end

section
/-! SUPPORT. JSR (42_jsr.md R80, R81): its effect after the fetch, its frame, and the whole step on either side of the
top of the address space. -/

namespace Sys2Proof.Machine

/-! ### After the fetch -/

/-- Settles O15: the one equation of a JSR that fits, then the three reads of a word write. -/
theorem execJsrCompletes : Obligations.ExecJsrCompletes := by
  intro abs16 s hsp hwf
  refine ⟨_, execJsr_below abs16 s hsp, ?_, ?_, ?_, fun addr hlo hhi => Memory.get_set_set_ne hlo hhi⟩
  · rw [Int.sub_sub]; rfl
  · rw [State.byteAt_mem, Memory.get_set_set_fst hwf, loByte_toNat]; rfl
  · rw [State.byteAt_mem, Memory.get_set_set_snd hwf (word_lt_capacity s.sp), hiByte_toNat]; rfl

/-- Settles O25: at the top of the address space only the latch changes; below it the two stored bytes, `PC`, `SP` and
`CYC` do, and the latch does not. -/
theorem frameOfJsr : Obligations.FrameOfJsr := by
  intro abs16 s t h
  rcases word_top_or_below s.sp with hsp | hsp
  · cases (execJsr_top abs16 s hsp).symm.trans h
    exact ⟨rfl, rfl, rfl, rfl, fun _ _ _ => rfl, fun hne => absurd hsp hne, fun _ => ⟨rfl, rfl, rfl, fun _ => rfl⟩⟩
  · cases (execJsr_below abs16 s hsp).symm.trans h
    exact ⟨rfl, rfl, rfl, rfl, fun _ hlo hhi => Memory.get_set_set_ne hlo hhi, fun _ => rfl,
      fun htop => absurd htop hsp⟩

/-! ### The whole step -/

/-- A running step at JSR's opcode byte is the JSR to the little-endian operand, from the state three fetched bytes
leave. -/
theorem stepWith_jsr {p : Opcodes} {s : State} (hp : p.Legal) (hf : s.fault = none) (hc : 0 < s.cyc)
    (hop : s.byteAt s.pc.toNat = p.jsr) :
    stepWith p s = exec (.jsr (joinBytes (s.byteAt (s.pc + 2).toNat) (s.byteAt (s.pc + 1).toNat)))
      { s with pc := s.pc + 3, cyc := s.cyc - 3 } :=
  stepWith_decoded hf hc (by rw [State.bytesAtPc, hop, decodeBytes_jsr hp])

/-- The word JSR stores is the address of its own last byte (42_jsr.md R80). -/
theorem add_three_sub_one (pc : Word) : pc + 3 - 1 = pc + 2 := by bv_omega

/-- Settles O20: what JSR does after the fetch (O15), from the state its fetch leaves. -/
theorem jsrStep : Obligations.JsrStep := by
  intro p s hp hf hc hop hsp hwf
  obtain ⟨t, hexec, heq, hlo, hhi, hframe⟩ := execJsrCompletes
    (joinBytes (s.byteAt (s.pc + 2).toNat) (s.byteAt (s.pc + 1).toNat))
    { s with pc := s.pc + 3, cyc := s.cyc - 3 } hsp hwf
  have hpc := congrArg State.pc heq
  simp only [add_three_sub_one, Int.sub_sub] at heq hlo hhi
  refine ⟨t, (stepWith_jsr hp hf hc hop).trans hexec, ?_, ?_, hlo, hhi, hframe⟩
  · rw [hpc]; exact heq
  · rw [hpc, joinBytes_toNat]

/-- Settles O21: the fetch moves `PC` and `CYC` by three, and the rejected store only latches the fault. -/
theorem jsrFaultStep : Obligations.JsrFaultStep := by
  intro p s hp hf hc hop hsp
  rw [stepWith_jsr hp hf hc hop]
  exact execJsr_top _ _ hsp

/-- Settles O28: of the five changes a step can make, only the JSR that fits writes `SP`, and below the top of the
address space the increment does not wrap. -/
theorem stepNeverLowersSp : Obligations.StepNeverLowersSp := by
  intro p s t h
  rcases stepWith_next_cases h with
    ⟨-, -, rfl⟩ | ⟨-, -, ⟨_, _, -, -, -, rfl⟩ | ⟨hsp, hjsr, _, rfl⟩ | ⟨-, -, rfl⟩ | ⟨-, rfl⟩⟩
  case inr.inr.inl => exact .inr ⟨hjsr, toNat_succ hsp⟩
  all_goals exact .inl rfl

end Sys2Proof.Machine
end

section
/-! SUPPORT. The unrecognized-opcode fallback (43_unrecognized.md R83): its effect after the fetch, and the whole step. -/

namespace Sys2Proof.Machine

/-- Settles O16: the fallback's own arm of `exec` is the identity, whatever the byte. -/
theorem execUnrecognizedCompletes : Obligations.ExecUnrecognizedCompletes := fun _ _ => rfl

/-- A running step at a byte that is none of the four opcodes does what the fetch of that one byte does. -/
theorem stepWith_of_not_defines {p : Opcodes} {s : State} (hf : s.fault = none) (hc : 0 < s.cyc)
    (hop : ¬ p.Defines (s.byteAt s.pc.toNat)) : stepWith p s = .next { s with pc := s.pc + 1, cyc := s.cyc - 1 } := by
  have hdecode := decodeBytes_of_operation (i := .unrecognized (s.byteAt s.pc.toNat))
    (decodeOpcode_of_not_defines hop) [s.byteAt (s.pc + 1).toNat, s.byteAt (s.pc + 2).toNat]
  exact (stepWith_decoded hf hc hdecode).trans (execUnrecognizedCompletes _ _)

/-- Settles O22: none of the four comparisons of R54 holds, so the fallback is what runs. -/
theorem unrecognizedStep : Obligations.UnrecognizedStep := fun _ _ hf hc himm hzp hzpx hjsr =>
  stepWith_of_not_defines hf hc (not_or.mpr ⟨himm, not_or.mpr ⟨hzp, not_or.mpr ⟨hzpx, hjsr⟩⟩⟩)

end Sys2Proof.Machine
end

section
/-! SUPPORT. The conditions of 60_exceptions.md: the spent budget, the host access out of range, and the latched fault. -/

namespace Sys2Proof.Machine

/-! ### The budget -/

/-- Settles O32: it is the model's equation for the idle step. -/
theorem idleStepRetainsState : Obligations.IdleStepRetainsState := fun _ _ => stepWith_idle

/-- Settles O37: the first turn spends the only cycle, so the loop starts no second one. -/
theorem budgetOfOneIsOneStep : Obligations.BudgetOfOneIsOneStep := by
  intro p s hf
  obtain ⟨t, hstep, hloop⟩ := executeIsTheWhileLoop p 1 s hf Int.one_pos
  have hrun : running (s.withCyc 1) = true := running_iff.mpr ⟨Int.one_pos, hf⟩
  obtain ⟨hspent : t.cyc ≤ 1 - 1, -⟩ := stepWith_charge hrun hstep
  rw [hstep, hloop 0, engineLoop_stopped (running_eq_false_of_cyc_le hspent)]

/-! ### The host access out of range -/

theorem transact_live_of_eq {p : Opcodes} {t : Transaction} {s u : State} {r : Response}
    (h : transactLive p t s = (r, u)) : transact p t (.live s) = (r, .live u) := by
  rw [transact_live, h]

/-- Settles O53: memory rejects the address, for the write and for the read. -/
theorem hostOutOfRangeChangesNothing : Obligations.HostOutOfRangeChangesNothing := fun p s _ v haddr =>
  ⟨transact_live_of_eq (transactLive_poke_of_le p s v haddr), transact_live_of_eq (transactLive_peek_of_le p s haddr)⟩

/-! ### The latched fault -/

theorem transactLive_poke_fault (p : Opcodes) (addr : Nat) (v : Byte) (s : State) :
    (transactLive p (.poke addr v) s).2.fault = s.fault := by
  rcases Nat.lt_or_ge addr Config.capacity with h | h
  · rw [transactLive_poke_of_lt p s v h, State.fault_withMem]
  · rw [transactLive_poke_of_le p s v h]

theorem transactLive_peek_state (p : Opcodes) (addr : Nat) (s : State) : (transactLive p (.peek addr) s).2 = s := by
  rcases Nat.lt_or_ge addr Config.capacity with h | h
  · rw [transactLive_peek_of_lt p s h]
  · rw [transactLive_peek_of_le p s h]

/-- Only reset clears the latch: no access and no preset writes it, and `execute` starts nothing while it is set. -/
theorem transactLive_keeps_latch {p : Opcodes} {t : Transaction} {s : State} (hf : s.fault ≠ none) (ht : t ≠ .reset) :
    (transactLive p t s).2.fault = s.fault := by
  cases t with
  | reset => exact absurd rfl ht
  | construct | inspect _ => rfl
  | poke addr v => exact transactLive_poke_fault p addr v s
  | peek addr => rw [transactLive_peek_state]
  | preset r => exact applyPreset_fault r s
  | execute budget => exact congrArg State.fault (execute_of_fault p budget hf)

/-- Settles O56: what keeps the latch, and the equations of `execute`, of a peek below the capacity and of reset. -/
theorem faultIsSticky : Obligations.FaultIsSticky := by
  intro p s f hf
  have hne : s.fault ≠ none := by rw [hf]; nofun
  refine ⟨fun t ht => ⟨_, _, transact_live p t s, (transactLive_keeps_latch hne ht).trans hf⟩, fun budget => ?_,
    fun addr haddr => transact_live_of_eq (transactLive_peek_of_lt p s haddr), transact_reset p nofun⟩
  exact transact_live_of_eq (congrArg (Prod.mk Response.done) (execute_of_fault p budget hne))

end Sys2Proof.Machine
end

section
/-! SUPPORT. Reset and the stack hazard (70_reset_and_hazards.md R101, R104): what reset forgets, and what two pushes
leave in the three bytes they share. -/

namespace Sys2Proof.Machine

/-! ### Reset -/

/-- Settles O51: on every constructed machine reset answers the same, and the state it leaves is one of them. -/
theorem resetIsIdempotent : Obligations.ResetIsIdempotent := by
  intro p pl pl' hpl hpl'
  have hreset := transact_reset p hpl
  refine ⟨?_, hreset.trans (transact_reset p hpl').symm⟩
  rw [hreset]
  exact transact_reset p nofun

/-! ### Two pushes -/

theorem word_ne_top_of_succ_lt {w : Word} (h : w.toNat + 1 < 65536) : w ≠ 0xFFFF#16 := by
  rintro rfl
  exact absurd h (by decide)

/-- Stored bytes are listed below the capacity, and a rejected store changes no memory. -/
theorem exec_jsr_keeps_wf {abs16 : Word} {s t : State} (hwf : s.mem.wf = true) (h : exec (.jsr abs16) s = .next t) :
    t.mem.wf = true := by
  rcases word_top_or_below s.sp with hsp | hsp
  · cases (execJsr_top abs16 s hsp).symm.trans h
    exact hwf
  · cases (execJsr_below abs16 s hsp).symm.trans h
    exact Memory.wf_set_set hwf (toNat_succ hsp ▸ word_lt_capacity (s.sp + 1))

/-- What a JSR below the top leaves of its push: the higher `SP`, and the two bytes of the return word at the old `SP`
with every other byte as before. -/
theorem exec_jsr_pushes {abs16 : Word} {s t : State} (hsp : s.sp ≠ 0xFFFF#16) (hwf : s.mem.wf = true)
    (h : exec (.jsr abs16) s = .next t) :
    t.sp.toNat = s.sp.toNat + 1 ∧
      (t.byteAt s.sp.toNat).toNat = (s.pc - 1).toNat % 256 ∧
      (t.byteAt (s.sp.toNat + 1)).toNat = (s.pc - 1).toNat / 256 ∧
      ∀ addr, addr ≠ s.sp.toNat → addr ≠ s.sp.toNat + 1 → t.byteAt addr = s.byteAt addr := by
  obtain ⟨u, hu, heq, hbytes⟩ := execJsrCompletes abs16 s hsp hwf
  cases hu.symm.trans h
  exact ⟨(congrArg (·.sp.toNat) heq).trans (toNat_succ hsp), hbytes⟩

/-- Settles O57: `SP` rises by one a push while a push stores two bytes, so the second overwrites the high byte of the
first word and leaves its low byte. -/
theorem consecutivePushesOverlap : Obligations.ConsecutivePushesOverlap := by
  intro t1 t2 s1 u1 s2 u2 hwf hroom h1 hsp hmem h2
  obtain ⟨hsp1, hlo1, -, -⟩ := exec_jsr_pushes (word_ne_top_of_succ_lt (by omega)) hwf h1
  have hsp2 : s2.sp.toNat = s1.sp.toNat + 1 := hsp ▸ hsp1
  have hwf2 : s2.mem.wf = true := hmem ▸ exec_jsr_keeps_wf hwf h1
  obtain ⟨hsp', hlo2, hhi2, hframe⟩ := exec_jsr_pushes (word_ne_top_of_succ_lt (by omega)) hwf2 h2
  rw [hsp2] at hsp' hlo2 hhi2 hframe
  have hkept : u2.byteAt s1.sp.toNat = u1.byteAt s1.sp.toNat :=
    (hframe _ (by omega) (by omega)).trans (congrArg (·.get s1.sp.toNat) hmem)
  exact ⟨hsp', hkept ▸ hlo1, hlo2, hhi2⟩

end Sys2Proof.Machine
end
